-- ==== Sys2Proof/Word.lean ====
section
/-! DEFINITION. The two word sizes of the machine (00_scope.md R10). -/

namespace Sys2Proof

/-- "Byte" is 8 bits (R10). -/
abbrev Byte := BitVec 8

/-- "Word" is 16 bits (R10). -/
abbrev Word := BitVec 16

end Sys2Proof
end

