-- ==== Sys2Proof/Config.lean ====
section
/-! DEFINITION. The implementation parameters of 00_scope.md R9: the fixed sizes, and the five choices for which the
spec keeps an alternative. Every alternative is modelled; the machine runs with the decided ones (`Config.decided`,
through `Sys2Proof.config` of Decode.lean). -/

namespace Sys2Proof

/-- `WORD_AT_FFFF` (R57, decision D8; entry 6): a word access at offset 0xFFFF. -/
inductive WordAtFFFF where
  | fault  -- raise OutOfBounds (decided)
  | wrap   -- the second byte is at 0x0000
  | spill  -- the second byte is at 0x10000
  deriving DecidableEq, Repr

/-- `IMM_S_EXTEND` (R100, decision D9; entry 7): the one-byte immediate of `100000sw` with s = 1, w = 1. -/
inductive ImmSExtend where
  | sign  -- sign-extended to 16 bits, tag word (decided)
  | zero  -- kept as a byte immediate, zero-extended where it is used
  deriving DecidableEq, Repr

/-- `MOVIMM_REG_FIELD` (R104, decision D11; entry 9): the reg field of first bytes C6 and C7. -/
inductive MovImmRegField where
  | mustBe000  -- any other value is an unsupported opcode (decided)
  | ignored    -- the field is not examined
  deriving DecidableEq, Repr

/-- `ARITH_MEM_SOURCE` (R133, decision D12; entry 10): ADD, SUB, CMP with a register destination and a memory source. -/
inductive ArithMemSource where
  | fault  -- raise UnsupportedOperandCombination (decided)
  | read   -- execute, reading memory
  deriving DecidableEq, Repr

/-- The parameters of R9 that carry an alternative. -/
structure Config where
  wordAtFFFF        : WordAtFFFF
  immSExtend        : ImmSExtend
  admitUnnamedForms : Bool  -- R82, decision D10; entry 8
  movImmRegField    : MovImmRegField
  arithMemSource    : ArithMemSource
  deriving DecidableEq, Repr

/-- The values R9 calls decided. -/
def Config.decided : Config where
  wordAtFFFF        := .fault
  immSExtend        := .sign
  admitUnnamedForms := true
  movImmRegField    := .mustBe000
  arithMemSource    := .fault

/-- `MEM_SIZE` (R9, R50): 1 MiB of data memory. -/
def memSize : Nat := 2 ^ 20

/-- `WINDOW` (R9): the decoder's lookahead, in bytes. -/
def windowLen : Nat := 6

/-- The largest `PROG_LEN` (R9, R221). -/
def maxProgLen : Nat := 65535

end Sys2Proof
end

