-- ==== Sys2Proof/Syntax.lean ====
section
/-! DEFINITION. The instructions: one constructor of `Instr` per row of spec/opcode_table.json (38 forms), the operands
of 30_encoding.md R107, and the decoded record of R106. -/

namespace Sys2Proof

/-- Operand width, the width bit `w` (R84): 8 or 16 bits. -/
inductive Width where
  | byte
  | word
  deriving DecidableEq, Repr

/-- The eight word registers, in the order of their 3-bit encodings (10_state.md R21). -/
inductive WordReg where
  | ax | cx | dx | bx | sp | bp | si | di
  deriving DecidableEq, Repr

/-- The eight byte registers, in the order of their 3-bit encodings (10_state.md R22). -/
inductive ByteReg where
  | al | cl | dl | bl | ah | ch | dh | bh
  deriving DecidableEq, Repr

/-- One of exactly 16 register names, in two disjoint tables (10_state.md R23). -/
inductive Reg where
  | byte (r : ByteReg)
  | word (r : WordReg)
  deriving DecidableEq, Repr

/-- The eight base combinations of a memory operand, in the order of the rm field (R94). -/
inductive Base where
  | bxSi | bxDi | bpSi | bpDi | si | di | bp | bx
  deriving DecidableEq, Repr

/-- The displacement class with its displacement (R96, R107). -/
inductive Disp where
  | none
  | d8  (d : Byte)
  | d16 (d : Word)
  deriving DecidableEq, Repr

/-- Where a memory operand points: eight base combinations crossed with a displacement class, or DIRECT (R94, R95). -/
inductive MemRef where
  | based  (b : Base) (d : Disp)
  | direct (addr : Word)
  deriving DecidableEq, Repr

/-- A memory operand with its explicit width tag (R97, R107). -/
structure MemOperand where
  ref   : MemRef
  width : Width
  deriving DecidableEq, Repr

/-- The operand that the mod and rm fields select: a register or a memory operand (R91). -/
inductive RM where
  | reg (r : Reg)
  | mem (m : MemOperand)
  deriving DecidableEq, Repr

/-- A literal tagged by its width (R99, R107). -/
inductive Imm where
  | byte (v : Byte)
  | word (v : Word)
  deriving DecidableEq, Repr

/-- The immediate bytes of the arithmetic group `100000sw` (R100): one byte with w = 0 (the `s` bit is kept: 0x82 is
0x80's second encoding, R86), two bytes with w = 1 and s = 0, one byte with w = 1 and s = 1. -/
inductive GroupImm where
  | byte  (s : Bool) (v : Byte)
  | word  (v : Word)
  | short (v : Byte)
  deriving DecidableEq, Repr

/-- The operand variants (R107); `rel8` is used by the twenty jumps only (R106). -/
inductive Operand where
  | rm   (o : RM)
  | imm  (i : Imm)
  | rel8 (disp : Byte)
  deriving DecidableEq, Repr

/-- The kind of an operand, as a fault records it (60_exceptions.md R190). -/
inductive OperandKind where
  | register | memory | immediate | rel8
  deriving DecidableEq, Repr

/-- The 24 operation tags (R106). -/
inductive OpTag where
  | mov | add | sub | cmp
  | jo | jno | jb | jnb | je | jne | jbe | ja | js | jns | jp | jnp | jl | jge | jle | jg
  | loopnz | loopz | loop | jcxz
  deriving DecidableEq, Repr

/-- The three operations of the ALU group, selected by a 3-bit code (R89). -/
inductive ArithOp where
  | add | sub | cmp
  deriving DecidableEq, Repr

/-- The decoded instruction as R106 writes it: operation tag, length in bytes, destination and source operand. -/
structure Decoded where
  op  : OpTag
  len : Nat
  dst : Option Operand
  src : Option Operand
  deriving DecidableEq, Repr

/-- One constructor per row of spec/opcode_table.json, in the table's order. An operand field holds what the row's
encoding can vary. -/
inductive Instr where
  -- MOV (R121 to R126)
  | movRmReg  (rm : RM) (r : Reg)
  | movRegRm  (r : Reg) (rm : RM)
  | movRmImm  (rm : RM) (i : Imm)
  | movRegImm (r : Reg) (i : Imm)
  | movAccMem (w : Width) (addr : Word)
  | movMemAcc (addr : Word) (w : Width)
  -- ADD (R135 to R138)
  | addRmReg  (rm : RM) (r : Reg)
  | addRegRm  (r : Reg) (rm : RM)
  | addRmImm  (rm : RM) (i : GroupImm)
  | addAccImm (i : Imm)
  -- SUB (R139 to R142)
  | subRmReg  (rm : RM) (r : Reg)
  | subRegRm  (r : Reg) (rm : RM)
  | subRmImm  (rm : RM) (i : GroupImm)
  | subAccImm (i : Imm)
  -- CMP (R143 to R146)
  | cmpRmReg  (rm : RM) (r : Reg)
  | cmpRegRm  (r : Reg) (rm : RM)
  | cmpRmImm  (rm : RM) (i : GroupImm)
  | cmpAccImm (i : Imm)
  -- the sixteen conditional jumps (R162, R164 to R178)
  | jo  (rel : Byte)
  | jno (rel : Byte)
  | jb  (rel : Byte)
  | jnb (rel : Byte)
  | je  (rel : Byte)
  | jne (rel : Byte)
  | jbe (rel : Byte)
  | ja  (rel : Byte)
  | js  (rel : Byte)
  | jns (rel : Byte)
  | jp  (rel : Byte)
  | jnp (rel : Byte)
  | jl  (rel : Byte)
  | jge (rel : Byte)
  | jle (rel : Byte)
  | jg  (rel : Byte)
  -- the LOOP family and JCXZ (R179 to R182)
  | loopnz (rel : Byte)
  | loopz  (rel : Byte)
  | loop   (rel : Byte)
  | jcxz   (rel : Byte)
  deriving DecidableEq, Repr

end Sys2Proof
end

