-- ==== Sys2Proof/WellFormed.lean ====
section
/-! DEFINITION. Which terms of `Instr` the encoding admits: the operands of an instruction have one width (20_memory.md
R63), and a BP base without a displacement has no encoding (R95). -/

namespace Sys2Proof

/-- The width of a register name (R23). -/
def Reg.width : Reg → Width
  | .byte _ => .byte
  | .word _ => .word

/-- The width tag of an immediate (R107). -/
def Imm.width : Imm → Width
  | .byte _ => .byte
  | .word _ => .word

/-- The width bit `w` of the first byte that carries a group immediate (R100). -/
def GroupImm.width : GroupImm → Width
  | .byte _ _ => .byte
  | .word _   => .word
  | .short _  => .word

/-- The width of the operand that mod and rm select (R93, R97). -/
def RM.width : RM → Width
  | .reg r => r.width
  | .mem m => m.width

/-- mod = 00 with rm = 110 is the direct address, so `[bp]` needs a displacement byte (R95). -/
def MemRef.encodable : MemRef → Bool
  | .based .bp .none => false
  | .based _ _       => true
  | .direct _        => true

/-- `MemRef.encodable` on the operand that mod and rm select. -/
def RM.encodable : RM → Bool
  | .reg _ => true
  | .mem m => m.ref.encodable

/-- The check on an r/m operand that stands beside an operand of width `w`. -/
def RM.fits (rm : RM) (w : Width) : Bool :=
  rm.encodable && rm.width == w

/-- The encoding admits the term. -/
def Instr.wf : Instr → Bool
  | .movRmReg rm r  => rm.fits r.width
  | .movRegRm r rm  => rm.fits r.width
  | .movRmImm rm i  => rm.fits i.width
  | .movRegImm r i  => r.width == i.width
  | .movAccMem _ _  => true
  | .movMemAcc _ _  => true
  | .addRmReg rm r  => rm.fits r.width
  | .addRegRm r rm  => rm.fits r.width
  | .addRmImm rm i  => rm.fits i.width
  | .addAccImm _    => true
  | .subRmReg rm r  => rm.fits r.width
  | .subRegRm r rm  => rm.fits r.width
  | .subRmImm rm i  => rm.fits i.width
  | .subAccImm _    => true
  | .cmpRmReg rm r  => rm.fits r.width
  | .cmpRegRm r rm  => rm.fits r.width
  | .cmpRmImm rm i  => rm.fits i.width
  | .cmpAccImm _    => true
  | .jo _  | .jno _ | .jb _ | .jnb _ | .je _  | .jne _ | .jbe _ | .ja _ => true
  | .js _  | .jns _ | .jp _ | .jnp _ | .jl _  | .jge _ | .jle _ | .jg _ => true
  | .loopnz _ | .loopz _ | .loop _ | .jcxz _ => true

/-- `Instr.wf` as a proposition. -/
abbrev Instr.WellFormed (i : Instr) : Prop := i.wf = true

end Sys2Proof
end

