-- ==== Sys2Proof/Decode.lean ====
section
/-! DEFINITION. The instruction decoder (30_encoding.md), the encoder written from the same tables, lengths (R108), the
decoded record (R106) and the numbering of spec/opcode_table.json (R118). -/

namespace Sys2Proof

/-- The parameter values this machine runs with: those 00_scope.md R9 calls decided. -/
def config : Config := Config.decided

/-! ## Bits and bytes (R10, R11, R55, R80) -/

/-- `hi ++ lo`. -/
def joinBytes (hi lo : Byte) : Word := hi ++ lo

/-- Bits 7 to 0. -/
def loByte (v : Word) : Byte := v.setWidth 8

/-- Bits 15 to 8. -/
def hiByte (v : Word) : Byte := v.extractLsb' 8 8

/-- `sext_8^16` (R11). -/
def sext8 (v : Byte) : Word := v.signExtend 16

/-- `zext_8` into 16 bits (R11). -/
def zext8 (v : Byte) : Word := v.setWidth 16

/-- The two bytes of a 16-bit field of an instruction, low byte first (R80). -/
def wordBytes (v : Word) : List Byte := [loByte v, hiByte v]

/-! ## Registers (R21, R22, R92) -/

/-- The word-register table (R21). -/
def wordRegOf (f : BitVec 3) : WordReg :=
  match f.getLsbD 2, f.getLsbD 1, f.getLsbD 0 with
  | false, false, false => .ax
  | false, false, true  => .cx
  | false, true,  false => .dx
  | false, true,  true  => .bx
  | true,  false, false => .sp
  | true,  false, true  => .bp
  | true,  true,  false => .si
  | true,  true,  true  => .di

/-- The byte-register table (R22). -/
def byteRegOf (f : BitVec 3) : ByteReg :=
  match f.getLsbD 2, f.getLsbD 1, f.getLsbD 0 with
  | false, false, false => .al
  | false, false, true  => .cl
  | false, true,  false => .dl
  | false, true,  true  => .bl
  | true,  false, false => .ah
  | true,  false, true  => .ch
  | true,  true,  false => .dh
  | true,  true,  true  => .bh

/-- `Reg(w, f)` (R92). -/
def regOf (w : Width) (f : BitVec 3) : Reg :=
  match w with
  | .byte => .byte (byteRegOf f)
  | .word => .word (wordRegOf f)

/-- AL or AX (R101, R102). -/
def accumulator (w : Width) : Reg := regOf w 0

/-- The meaning of the width bit (R84). -/
def widthOf (w : Bool) : Width := if w then .word else .byte

/-! ## The lookahead window (R5, R71) -/

/-- Six bytes, `win[0]` to `win[5]`. -/
structure Window where
  b0 : Byte
  b1 : Byte
  b2 : Byte
  b3 : Byte
  b4 : Byte
  b5 : Byte
  deriving DecidableEq, Repr

/-- The first six bytes of a list, zero filled. -/
def Window.ofBytes (bs : List Byte) : Window where
  b0 := bs.getD 0 0
  b1 := bs.getD 1 0
  b2 := bs.getD 2 0
  b3 := bs.getD 3 0
  b4 := bs.getD 4 0
  b5 := bs.getD 5 0

/-- The six bytes, first byte first. -/
def Window.bytes (win : Window) : List Byte :=
  [win.b0, win.b1, win.b2, win.b3, win.b4, win.b5]

/-- `win[k]`. -/
def Window.get (win : Window) (k : Nat) : Byte := win.bytes.getD k 0

/-- `win[k+1] ++ win[k]` (R80). -/
def Window.get16 (win : Window) (k : Nat) : Word := joinBytes (win.get (k + 1)) (win.get k)

/-! ## The mod-reg-rm byte (R90 to R96) -/

/-- The `BASE` list of R109, keyed by the rm field (R94). -/
def baseOf (rm : BitVec 3) : Base :=
  match rm.getLsbD 2, rm.getLsbD 1, rm.getLsbD 0 with
  | false, false, false => .bxSi
  | false, false, true  => .bxDi
  | false, true,  false => .bpSi
  | false, true,  true  => .bpDi
  | true,  false, false => .si
  | true,  false, true  => .di
  | true,  true,  false => .bp
  | true,  true,  true  => .bx

/-- `mod = modrm[7:6]`. -/
def modField (b : Byte) : BitVec 2 := b.extractLsb' 6 2

/-- `reg = modrm[5:3]`; also the operation code of a first byte (R89). -/
def regField (b : Byte) : BitVec 3 := b.extractLsb' 3 3

/-- `rm = modrm[2:0]`. -/
def rmField (b : Byte) : BitVec 3 := b.extractLsb' 0 3

/-- The rm operand of `ModRM(win, w)` (R109; R91, R93 to R96). -/
def rmOperand (win : Window) (w : Width) : RM :=
  let rm := rmField win.b1
  match (modField win.b1).getLsbD 1, (modField win.b1).getLsbD 0 with
  | true,  true  => .reg (regOf w rm)
  | false, false =>
    if rm = 6 then .mem ⟨.direct (win.get16 2), w⟩ else .mem ⟨.based (baseOf rm) .none, w⟩
  | false, true  => .mem ⟨.based (baseOf rm) (.d8 (win.get 2)), w⟩
  | true,  false => .mem ⟨.based (baseOf rm) (.d16 (win.get16 2)), w⟩

/-- `nd`, the number of displacement or direct-address bytes (R91, R95). -/
def RM.dispLen : RM → Nat
  | .reg _                      => 0
  | .mem ⟨.direct _, _⟩         => 2
  | .mem ⟨.based _ .none, _⟩    => 0
  | .mem ⟨.based _ (.d8 _), _⟩  => 1
  | .mem ⟨.based _ (.d16 _), _⟩ => 2

/-! ## Immediates (R99 to R101) -/

/-- `Imm(win, p, w, 0)` (R99, R109). -/
def immAt (win : Window) (p : Nat) (w : Width) : Imm :=
  match w with
  | .byte => .byte (win.get p)
  | .word => .word (win.get16 p)

/-- `Imm(win, p, w, s)` of the arithmetic group (R100). -/
def groupImmAt (win : Window) (p : Nat) (w : Width) (s : Bool) : GroupImm :=
  match w, s with
  | .byte, s     => .byte s (win.get p)
  | .word, false => .word (win.get16 p)
  | .word, true  => .short (win.get p)

/-- The number of bytes of an immediate (R99). -/
def Imm.len : Imm → Nat
  | .byte _ => 1
  | .word _ => 2

/-- The number of bytes of a group immediate (R100). -/
def GroupImm.len : GroupImm → Nat
  | .byte _ _ => 1
  | .word _   => 2
  | .short _  => 1

/-! ## The decode algorithm (R82, R109) -/

/-- Why a window does not decode: an unsupported opcode with its first two bytes (R83, R103, R104, R191). -/
inductive DecodeError where
  | unsupportedOpcode (b0 b1 : Byte)
  deriving DecidableEq, Repr

/-- The `ARITH` table (R89); the other five codes are not in this hardware. -/
def arithOf (code : BitVec 3) : Option ArithOp :=
  match code.getLsbD 2, code.getLsbD 1, code.getLsbD 0 with
  | false, false, false => some .add
  | true,  false, true  => some .sub
  | true,  true,  true  => some .cmp
  | false, false, true  => none
  | false, true,  false => none
  | false, true,  true  => none
  | true,  false, false => none
  | true,  true,  false => none

/-- The instruction of patterns 6 to 8: `d` selects the destination (R85, R98). -/
def ArithOp.rmReg (op : ArithOp) (d : Bool) (rm : RM) (r : Reg) : Instr :=
  match op, d with
  | .add, false => .addRmReg rm r
  | .add, true  => .addRegRm r rm
  | .sub, false => .subRmReg rm r
  | .sub, true  => .subRegRm r rm
  | .cmp, false => .cmpRmReg rm r
  | .cmp, true  => .cmpRegRm r rm

/-- The instruction of pattern 9 (R103). -/
def ArithOp.rmImm (op : ArithOp) (rm : RM) (i : GroupImm) : Instr :=
  match op with
  | .add => .addRmImm rm i
  | .sub => .subRmImm rm i
  | .cmp => .cmpRmImm rm i

/-- The instruction of patterns 10 to 12 (R101). -/
def ArithOp.accImm (op : ArithOp) (i : Imm) : Instr :=
  match op with
  | .add => .addAccImm i
  | .sub => .subAccImm i
  | .cmp => .cmpAccImm i

/-- The sixteen conditional jumps, numbered by the low four bits of 0x70 to 0x7F (R88). -/
def jccOf (cc : BitVec 4) (rel : Byte) : Instr :=
  match cc.getLsbD 3, cc.getLsbD 2, cc.getLsbD 1, cc.getLsbD 0 with
  | false, false, false, false => .jo rel
  | false, false, false, true  => .jno rel
  | false, false, true,  false => .jb rel
  | false, false, true,  true  => .jnb rel
  | false, true,  false, false => .je rel
  | false, true,  false, true  => .jne rel
  | false, true,  true,  false => .jbe rel
  | false, true,  true,  true  => .ja rel
  | true,  false, false, false => .js rel
  | true,  false, false, true  => .jns rel
  | true,  false, true,  false => .jp rel
  | true,  false, true,  true  => .jnp rel
  | true,  true,  false, false => .jl rel
  | true,  true,  false, true  => .jge rel
  | true,  true,  true,  false => .jle rel
  | true,  true,  true,  true  => .jg rel

/-- The LOOP family and JCXZ, numbered by the low two bits of 0xE0 to 0xE3 (R88). -/
def loopOf (cc : BitVec 2) (rel : Byte) : Instr :=
  match cc.getLsbD 1, cc.getLsbD 0 with
  | false, false => .loopnz rel
  | false, true  => .loopz rel
  | true,  false => .loop rel
  | true,  true  => .jcxz rel

/-- The pattern of R82 that a first byte matches. -/
inductive Pattern where
  | movRmReg                   -- 1   100010dw
  | movRmImm                   -- 2   1100011w
  | movRegImm                  -- 3   1011wrrr
  | movAccMem                  -- 4   1010000w
  | movMemAcc                  -- 5   1010001w
  | arithRmReg (op : ArithOp)  -- 6, 7, 8     00ooo0dw
  | arithRmImm                 -- 9   100000sw
  | arithAccImm (op : ArithOp) -- 10, 11, 12  00ooo10w
  | jcc                        -- 13  0111cccc
  | loop                       -- 14  111000cc
  deriving DecidableEq, Repr

/-- The match of the first byte, in the order of R82 and R109; `none` for a byte no pattern matches (R83). -/
def classify (b0 : Byte) : Option Pattern :=
  if b0 &&& 0xFC = 0x88 then some .movRmReg
  else if b0 &&& 0xFE = 0xC6 then some .movRmImm
  else if b0 &&& 0xF0 = 0xB0 then some .movRegImm
  else if b0 &&& 0xFE = 0xA0 then some .movAccMem
  else if b0 &&& 0xFE = 0xA2 then some .movMemAcc
  else if b0 &&& 0xFC = 0x00 then some (.arithRmReg .add)
  else if b0 &&& 0xFC = 0x28 then some (.arithRmReg .sub)
  else if b0 &&& 0xFC = 0x38 then some (.arithRmReg .cmp)
  else if b0 &&& 0xFC = 0x80 then some .arithRmImm
  else if b0 &&& 0xFE = 0x04 then some (.arithAccImm .add)
  else if b0 &&& 0xFE = 0x2C then some (.arithAccImm .sub)
  else if b0 &&& 0xFE = 0x3C then some (.arithAccImm .cmp)
  else if b0 &&& 0xF0 = 0x70 then some .jcc
  else if b0 &&& 0xFC = 0xE0 then some .loop
  else none

/-- The fields of a window whose first byte matches `p` (R109), under the parameters `c`. -/
def decodePattern (c : Config) (win : Window) (p : Pattern) : Except DecodeError Instr :=
  let w  := widthOf (win.b0.getLsbD 0)
  let d  := win.b0.getLsbD 1
  let rm := rmOperand win w
  let r  := regOf w (regField win.b1)
  let unsupported := .error (.unsupportedOpcode win.b0 win.b1)
  match p with
  | .movRmReg => .ok (if d then .movRegRm r rm else .movRmReg rm r)
  | .movRmImm =>  -- R104
    if c.movImmRegField = .mustBe000 ∧ regField win.b1 ≠ 0 then unsupported
    else .ok (.movRmImm rm (immAt win (2 + rm.dispLen) w))
  | .movRegImm =>  -- R87
    let w' := widthOf (win.b0.getLsbD 3)
    .ok (.movRegImm (regOf w' (rmField win.b0)) (immAt win 1 w'))
  | .movAccMem => .ok (.movAccMem w (win.get16 1))
  | .movMemAcc => if c.admitUnnamedForms then .ok (.movMemAcc (win.get16 1) w) else unsupported
  | .arithRmReg op => .ok (op.rmReg d rm r)
  | .arithRmImm =>  -- R103
    match arithOf (regField win.b1) with
    | some op => .ok (op.rmImm rm (groupImmAt win (2 + rm.dispLen) w d))
    | none    => unsupported
  | .arithAccImm op => if c.admitUnnamedForms then .ok (op.accImm (immAt win 1 w)) else unsupported
  | .jcc  => .ok (jccOf (win.b0.extractLsb' 0 4) win.b1)
  | .loop => .ok (loopOf (win.b0.extractLsb' 0 2) win.b1)

/-- `Decode(win)` (R109) under the parameters `c`: total on every window, reading nothing but the window (R110). -/
def decodeWith (c : Config) (win : Window) : Except DecodeError Instr :=
  match classify win.b0 with
  | some p => decodePattern c win p
  | none   => .error (.unsupportedOpcode win.b0 win.b1)

/-- The machine's decoder. -/
def decode (win : Window) : Except DecodeError Instr := decodeWith config win

/-! ## The encoder -/

/-- The width bit of a width (R84). -/
def Width.bit : Width → BitVec 1
  | .byte => 0
  | .word => 1

/-- The 3-bit encoding of a register name (R21, R22). -/
def Reg.code : Reg → BitVec 3
  | .byte .al | .word .ax => 0
  | .byte .cl | .word .cx => 1
  | .byte .dl | .word .dx => 2
  | .byte .bl | .word .bx => 3
  | .byte .ah | .word .sp => 4
  | .byte .ch | .word .bp => 5
  | .byte .dh | .word .si => 6
  | .byte .bh | .word .di => 7

/-- The rm field of a base combination (R94). -/
def Base.code : Base → BitVec 3
  | .bxSi => 0
  | .bxDi => 1
  | .bpSi => 2
  | .bpDi => 3
  | .si   => 4
  | .di   => 5
  | .bp   => 6
  | .bx   => 7

/-- The byte `mm rrr nnn` (R90). -/
def modrmByte (mod : BitVec 2) (reg rm : BitVec 3) : Byte := mod ++ reg ++ rm

/-- The modrm byte with `reg` in its middle field, and the displacement or address bytes after it (R91 to R96). -/
def RM.encode (reg : BitVec 3) : RM → List Byte
  | .reg r                      => [modrmByte 3 reg r.code]
  | .mem ⟨.direct a, _⟩         => modrmByte 0 reg 6 :: wordBytes a
  | .mem ⟨.based b .none, _⟩    => [modrmByte 0 reg b.code]
  | .mem ⟨.based b (.d8 d), _⟩  => [modrmByte 1 reg b.code, d]
  | .mem ⟨.based b (.d16 d), _⟩ => modrmByte 2 reg b.code :: wordBytes d

/-- The bytes of an immediate (R99). -/
def Imm.encode : Imm → List Byte
  | .byte v => [v]
  | .word v => wordBytes v

/-- The bytes of a group immediate (R100). -/
def GroupImm.encode : GroupImm → List Byte
  | .byte _ v => [v]
  | .word v   => wordBytes v
  | .short v  => [v]

/-- The `s` bit of a group immediate (R86). -/
def GroupImm.sBit : GroupImm → BitVec 1
  | .byte s _ => BitVec.ofBool s
  | .word _   => 0
  | .short _  => 1

/-- A first byte of seven fixed bits and the width bit. -/
def opcode7 (bits : BitVec 7) (w : Width) : Byte := bits ++ w.bit

/-- The bytes of pattern 9 with sub-op `sub` (R103). -/
def encodeGroup (sub : BitVec 3) (rm : RM) (i : GroupImm) : List Byte :=
  ((0b100000#6 ++ i.sBit ++ i.width.bit : Byte) :: rm.encode sub) ++ i.encode

/-- The bytes of a well-formed instruction, first byte first (the patterns of R82, R88, R89). -/
def encode : Instr → List Byte
  | .movRmReg rm r  => opcode7 0b1000100 r.width :: rm.encode r.code
  | .movRegRm r rm  => opcode7 0b1000101 r.width :: rm.encode r.code
  | .movRmImm rm i  => (opcode7 0b1100011 i.width :: rm.encode 0) ++ i.encode
  | .movRegImm r i  => (0b1011#4 ++ r.width.bit ++ r.code : Byte) :: i.encode
  | .movAccMem w a  => opcode7 0b1010000 w :: wordBytes a
  | .movMemAcc a w  => opcode7 0b1010001 w :: wordBytes a
  | .addRmReg rm r  => opcode7 0b0000000 r.width :: rm.encode r.code
  | .addRegRm r rm  => opcode7 0b0000001 r.width :: rm.encode r.code
  | .addRmImm rm i  => encodeGroup 0b000 rm i
  | .addAccImm i    => opcode7 0b0000010 i.width :: i.encode
  | .subRmReg rm r  => opcode7 0b0010100 r.width :: rm.encode r.code
  | .subRegRm r rm  => opcode7 0b0010101 r.width :: rm.encode r.code
  | .subRmImm rm i  => encodeGroup 0b101 rm i
  | .subAccImm i    => opcode7 0b0010110 i.width :: i.encode
  | .cmpRmReg rm r  => opcode7 0b0011100 r.width :: rm.encode r.code
  | .cmpRegRm r rm  => opcode7 0b0011101 r.width :: rm.encode r.code
  | .cmpRmImm rm i  => encodeGroup 0b111 rm i
  | .cmpAccImm i    => opcode7 0b0011110 i.width :: i.encode
  | .jo rel     => [0x70, rel]
  | .jno rel    => [0x71, rel]
  | .jb rel     => [0x72, rel]
  | .jnb rel    => [0x73, rel]
  | .je rel     => [0x74, rel]
  | .jne rel    => [0x75, rel]
  | .jbe rel    => [0x76, rel]
  | .ja rel     => [0x77, rel]
  | .js rel     => [0x78, rel]
  | .jns rel    => [0x79, rel]
  | .jp rel     => [0x7A, rel]
  | .jnp rel    => [0x7B, rel]
  | .jl rel     => [0x7C, rel]
  | .jge rel    => [0x7D, rel]
  | .jle rel    => [0x7E, rel]
  | .jg rel     => [0x7F, rel]
  | .loopnz rel => [0xE0, rel]
  | .loopz rel  => [0xE1, rel]
  | .loop rel   => [0xE2, rel]
  | .jcxz rel   => [0xE3, rel]

/-! ## The decoded record (R106) and the length (R108) -/

/-- The operand an arithmetic-group immediate stands for (R100 under `IMM_S_EXTEND`). -/
def GroupImm.toImm (c : Config) : GroupImm → Imm
  | .byte _ v => .byte v
  | .word v   => .word v
  | .short v  =>
    match c.immSExtend with
    | .sign => .word (sext8 v)
    | .zero => .byte v

/-- The direct-address operand of format AM (R102). -/
def directOperand (w : Width) (a : Word) : RM := .mem ⟨.direct a, w⟩

/-- The operation tag of an instruction (R106). -/
def Instr.op : Instr → OpTag
  | .movRmReg _ _ | .movRegRm _ _ | .movRmImm _ _ | .movRegImm _ _ | .movAccMem _ _ | .movMemAcc _ _ => .mov
  | .addRmReg _ _ | .addRegRm _ _ | .addRmImm _ _ | .addAccImm _ => .add
  | .subRmReg _ _ | .subRegRm _ _ | .subRmImm _ _ | .subAccImm _ => .sub
  | .cmpRmReg _ _ | .cmpRegRm _ _ | .cmpRmImm _ _ | .cmpAccImm _ => .cmp
  | .jo _     => .jo
  | .jno _    => .jno
  | .jb _     => .jb
  | .jnb _    => .jnb
  | .je _     => .je
  | .jne _    => .jne
  | .jbe _    => .jbe
  | .ja _     => .ja
  | .js _     => .js
  | .jns _    => .jns
  | .jp _     => .jp
  | .jnp _    => .jnp
  | .jl _     => .jl
  | .jge _    => .jge
  | .jle _    => .jle
  | .jg _     => .jg
  | .loopnz _ => .loopnz
  | .loopz _  => .loopz
  | .loop _   => .loop
  | .jcxz _   => .jcxz

/-- The encoded length in bytes, by format (R108). -/
def Instr.len : Instr → Nat
  | .movRmReg rm _ | .addRmReg rm _ | .subRmReg rm _ | .cmpRmReg rm _ => 2 + rm.dispLen
  | .movRegRm _ rm | .addRegRm _ rm | .subRegRm _ rm | .cmpRegRm _ rm => 2 + rm.dispLen
  | .movRmImm rm i => 2 + rm.dispLen + i.len
  | .addRmImm rm i | .subRmImm rm i | .cmpRmImm rm i => 2 + rm.dispLen + i.len
  | .movRegImm _ i | .addAccImm i | .subAccImm i | .cmpAccImm i => 1 + i.len
  | .movAccMem _ _ | .movMemAcc _ _ => 3
  | .jo _  | .jno _ | .jb _ | .jnb _ | .je _  | .jne _ | .jbe _ | .ja _ => 2
  | .js _  | .jns _ | .jp _ | .jnp _ | .jl _  | .jge _ | .jle _ | .jg _ => 2
  | .loopnz _ | .loopz _ | .loop _ | .jcxz _ => 2

/-- The destination and source operand (R98, R99 to R102, R106). -/
def Instr.operands (c : Config) : Instr → Option Operand × Option Operand
  | .movRmReg rm r | .addRmReg rm r | .subRmReg rm r | .cmpRmReg rm r => (some (.rm rm), some (.rm (.reg r)))
  | .movRegRm r rm | .addRegRm r rm | .subRegRm r rm | .cmpRegRm r rm => (some (.rm (.reg r)), some (.rm rm))
  | .movRmImm rm i  => (some (.rm rm), some (.imm i))
  | .movRegImm r i  => (some (.rm (.reg r)), some (.imm i))
  | .movAccMem w a  => (some (.rm (.reg (accumulator w))), some (.rm (directOperand w a)))
  | .movMemAcc a w  => (some (.rm (directOperand w a)), some (.rm (.reg (accumulator w))))
  | .addRmImm rm i | .subRmImm rm i | .cmpRmImm rm i => (some (.rm rm), some (.imm (i.toImm c)))
  | .addAccImm i | .subAccImm i | .cmpAccImm i => (some (.rm (.reg (accumulator i.width))), some (.imm i))
  | .jo k  | .jno k | .jb k | .jnb k | .je k  | .jne k | .jbe k | .ja k => (some (.rel8 k), none)
  | .js k  | .jns k | .jp k | .jnp k | .jl k  | .jge k | .jle k | .jg k => (some (.rel8 k), none)
  | .loopnz k | .loopz k | .loop k | .jcxz k => (some (.rel8 k), none)

/-- The decoded record of R106. -/
def Instr.decoded (c : Config) (i : Instr) : Decoded where
  op  := i.op
  len := i.len
  dst := (i.operands c).1
  src := (i.operands c).2

/-! ## spec/opcode_table.json (R118) -/

/-- The `mask` and `match` of a row of the table: 16-bit values over `(win[0] << 8) | win[1]`. -/
structure TableRow where
  mask    : Word
  pattern : Word
  deriving DecidableEq, Repr

/-- The row of the table that a constructor stands for. -/
def Instr.row : Instr → TableRow
  | .movRmReg _ _  => ⟨0xFE00, 0x8800⟩
  | .movRegRm _ _  => ⟨0xFE00, 0x8A00⟩
  | .movRmImm _ _  => ⟨0xFE38, 0xC600⟩
  | .movRegImm _ _ => ⟨0xF000, 0xB000⟩
  | .movAccMem _ _ => ⟨0xFE00, 0xA000⟩
  | .movMemAcc _ _ => ⟨0xFE00, 0xA200⟩
  | .addRmReg _ _  => ⟨0xFE00, 0x0000⟩
  | .addRegRm _ _  => ⟨0xFE00, 0x0200⟩
  | .addRmImm _ _  => ⟨0xFC38, 0x8000⟩
  | .addAccImm _   => ⟨0xFE00, 0x0400⟩
  | .subRmReg _ _  => ⟨0xFE00, 0x2800⟩
  | .subRegRm _ _  => ⟨0xFE00, 0x2A00⟩
  | .subRmImm _ _  => ⟨0xFC38, 0x8028⟩
  | .subAccImm _   => ⟨0xFE00, 0x2C00⟩
  | .cmpRmReg _ _  => ⟨0xFE00, 0x3800⟩
  | .cmpRegRm _ _  => ⟨0xFE00, 0x3A00⟩
  | .cmpRmImm _ _  => ⟨0xFC38, 0x8038⟩
  | .cmpAccImm _   => ⟨0xFE00, 0x3C00⟩
  | .jo _     => ⟨0xFF00, 0x7000⟩
  | .jno _    => ⟨0xFF00, 0x7100⟩
  | .jb _     => ⟨0xFF00, 0x7200⟩
  | .jnb _    => ⟨0xFF00, 0x7300⟩
  | .je _     => ⟨0xFF00, 0x7400⟩
  | .jne _    => ⟨0xFF00, 0x7500⟩
  | .jbe _    => ⟨0xFF00, 0x7600⟩
  | .ja _     => ⟨0xFF00, 0x7700⟩
  | .js _     => ⟨0xFF00, 0x7800⟩
  | .jns _    => ⟨0xFF00, 0x7900⟩
  | .jp _     => ⟨0xFF00, 0x7A00⟩
  | .jnp _    => ⟨0xFF00, 0x7B00⟩
  | .jl _     => ⟨0xFF00, 0x7C00⟩
  | .jge _    => ⟨0xFF00, 0x7D00⟩
  | .jle _    => ⟨0xFF00, 0x7E00⟩
  | .jg _     => ⟨0xFF00, 0x7F00⟩
  | .loopnz _ => ⟨0xFF00, 0xE000⟩
  | .loopz _  => ⟨0xFF00, 0xE100⟩
  | .loop _   => ⟨0xFF00, 0xE200⟩
  | .jcxz _   => ⟨0xFF00, 0xE300⟩

/-- The row selects the window (R118). -/
abbrev TableRow.Selects (row : TableRow) (win : Window) : Prop :=
  joinBytes win.b0 win.b1 &&& row.mask = row.pattern

/-- Byte `k` of the `nbits`-bit number `w`, counting from its least significant byte. -/
def numberByte (nbits w k : Nat) : Byte := BitVec.ofNat 8 (w % 2 ^ nbits / 2 ^ (8 * k))

/-- The six bytes of an instruction whose bits are numbered as spec/opcode_table.json numbers them: the first 16 bits are
`(win[0] << 8) | win[1]` (R118), so byte 0 is bits 15..8; a later byte `k` is bits 8k+7..8k; a number of at most eight
bits is byte 0 alone (DESIGN CHOICE for the last two, which the table never uses; entry 17). -/
def tableBytes (nbits w : Nat) : List Byte :=
  if nbits ≤ 8 then [numberByte nbits w 0, 0, 0, 0, 0, 0]
  else [numberByte nbits w 1, numberByte nbits w 0, numberByte nbits w 2, numberByte nbits w 3,
        numberByte nbits w 4, numberByte nbits w 5]

/-- The instruction the decoder reads from a table-numbered word, every bit above `nbits` zero. -/
def decodeTableWord (nbits w : Nat) : Option Instr :=
  match decode (Window.ofBytes (tableBytes nbits w)) with
  | .ok i    => some i
  | .error _ => none

end Sys2Proof
end

