-- ==== Sys2Proof/Machine/State.lean ====
section
/-! DEFINITION. The complete state of the machine (10_state.md), the spec's three faults, the model's refusals, and
reset (70_reset_and_hazards.md R220). -/

namespace Sys2Proof.Machine

/-- The three fault causes with the information each records (60_exceptions.md R190). A fault is TAKEN, not answered: it
is recorded in the run status by `raise`, the step ends in a next state, and the outcome `Host.Outcome.fault` is never
used (entry 2). Safe: a faulted state stays as it is until reset (R38). -/
inductive Fault where
  /-- F1, raised by the machine cycle when Decode refuses the window: its first two bytes, and `pc` (R191). Safe: the
  hardware stops here too. -/
  | unsupportedOpcode (b0 b1 : Byte) (pc : Word)
  /-- F2, raised by ADD, SUB, CMP on a memory operand, by the nineteen decode-only jumps, and by a MOV term whose operand
  pair is not one of R127's (R192). Safe: the hardware stops, or (decision D12) may have gone on. -/
  | unsupportedOperandCombination (op : OpTag) (dst src : Option OperandKind)
  /-- F3, raised by a word access at offset 0xFFFF (R57, R193). Safe: the hardware may have gone on (decision D8). -/
  | outOfBounds (offset : Word)
  deriving DecidableEq, Repr

/-- Why the model gives no meaning. -/
inductive Refusal where
  /-- An arm of `exec` whose instruction has no meaning yet; no arm uses it. Safe. -/
  | notModelled (mnemonic : String)
  /-- Raised by the machine cycle and by `State.boot`: the program image is longer than 65535 bytes, which "is refused by
  the model (it is not run)" (R221, decision D2). Safe. -/
  | imageTooLong (length : Nat)
  deriving DecidableEq, Repr

/-- The run status (R38). -/
inductive RunStatus where
  | running
  | halted
  | faulted (cause : Fault)
  deriving DecidableEq, Repr

/-- The eight 16-bit cells `x[0]` to `x[7]` (R20, R21). -/
structure RegFile where
  ax : Word
  cx : Word
  dx : Word
  bx : Word
  sp : Word
  bp : Word
  si : Word
  di : Word
  deriving DecidableEq, Repr

/-- The data memory (R50): address and byte pairs, addresses strictly rising, no byte equal to what an unlisted address
reads as (`Memory.wf` of Ops.lean). -/
abbrev Memory := List Host.Cell

/-- What an unlisted address reads as: "zero-initialized" (R44; entry 4). -/
def Memory.unlisted : Byte := 0

/-- The complete state (10_state.md). `image` is the program image: an argument of the machine in the spec (R5, R9), held
here because `step` has no other argument, and changed by no step (entry 1). `PROG_LEN` is its length. -/
structure State where
  regs   : RegFile
  pc     : Word
  flags  : Word
  mem    : Memory
  status : RunStatus
  image  : List Byte
  deriving DecidableEq, Repr

/-- `PROG_LEN`. -/
abbrev State.progLen (s : State) : Nat := s.image.length

/-- Every register at `REG_RESET` (R41, decision D3; entry 3). -/
def RegFile.reset : RegFile := ⟨0, 0, 0, 0, 0, 0, 0, 0⟩

/-- The machine right after reset (R220; R41 to R45), no program image supplied yet (entry 1). -/
def State.reset : State where
  regs   := .reset
  pc     := 0
  flags  := 0
  mem    := []
  status := .running
  image  := []

end Sys2Proof.Machine
end

