-- ==== Sys2Proof/Machine/Ops.lean ====
section
/-! DEFINITION. The named operations over registers, memory and `pc`, and taking a fault. -/

namespace Sys2Proof.Machine

/-- What executing an instruction gives: the state after it, or the fault it raises. -/
abbrev Result := Except Fault State

/-! ## Registers (10_state.md R20, R24, R25) -/

/-- `x[i]` (R20, R21). -/
def RegFile.get (x : RegFile) : WordReg → Word
  | .ax => x.ax
  | .cx => x.cx
  | .dx => x.dx
  | .bx => x.bx
  | .sp => x.sp
  | .bp => x.bp
  | .si => x.si
  | .di => x.di

/-- `x[i] <- v` (R20, R21). -/
def RegFile.set (x : RegFile) (r : WordReg) (v : Word) : RegFile :=
  match r with
  | .ax => { x with ax := v }
  | .cx => { x with cx := v }
  | .dx => { x with dx := v }
  | .bx => { x with bx := v }
  | .sp => { x with sp := v }
  | .bp => { x with bp := v }
  | .si => { x with si := v }
  | .di => { x with di := v }

/-- The word register a byte register is half of (R22). -/
def byteParent : ByteReg → WordReg
  | .al | .ah => .ax
  | .cl | .ch => .cx
  | .dl | .dh => .dx
  | .bl | .bh => .bx

/-- The byte register is bits 15 to 8 of its parent (R22). -/
def byteIsHigh : ByteReg → Bool
  | .al | .cl | .dl | .bl => false
  | .ah | .ch | .dh | .bh => true

/-- `RegRead(r)`, a byte register's value zero-widened to 16 bits (R24). -/
def RegFile.read (x : RegFile) : Reg → Word
  | .word r => x.get r
  | .byte r => zext8 (if byteIsHigh r then hiByte (x.get (byteParent r)) else loByte (x.get (byteParent r)))

/-- `RegWrite(r, v)`, `v` truncated to the register's width (R25). -/
def RegFile.write (x : RegFile) (r : Reg) (v : Word) : RegFile :=
  match r with
  | .word r => x.set r v
  | .byte r =>
    let p := byteParent r
    x.set p (if byteIsHigh r then joinBytes (loByte v) (loByte (x.get p)) else joinBytes (hiByte (x.get p)) (loByte v))

/-- `RegRead(r)` on the state. -/
def State.regRead (s : State) (r : Reg) : Word := s.regs.read r

/-- `RegWrite(r, v)` on the state. -/
def State.regWrite (s : State) (r : Reg) (v : Word) : State := { s with regs := s.regs.write r v }

/-! ## Data memory (20_memory.md R50, R53, R54) -/

/-- The canonical form: addresses strictly rising and inside `MEM_SIZE`, no entry equal to the unlisted byte. -/
abbrev Memory.wf (m : Memory) : Prop :=
  m.Pairwise (fun a b => a.1 < b.1) ∧ ∀ e ∈ m, e.1 < memSize ∧ e.2 ≠ Memory.unlisted

/-- `mem[a]`. -/
def Memory.read (m : Memory) (a : Nat) : Byte :=
  match m with
  | []           => Memory.unlisted
  | (k, b) :: m' => if a = k then b else Memory.read m' a

/-- An entry for `a`, where `v` differs from the unlisted byte, in front of `m`. -/
def Memory.cons (a : Nat) (v : Byte) (m : Memory) : Memory :=
  if v = Memory.unlisted then m else (a, v) :: m

/-- `mem[a] <- v`, in the canonical form. -/
def Memory.write (m : Memory) (a : Nat) (v : Byte) : Memory :=
  match m with
  | []           => Memory.cons a v []
  | (k, b) :: m' =>
    if a < k then Memory.cons a v ((k, b) :: m')
    else if a = k then Memory.cons a v m'
    else (k, b) :: Memory.write m' a v

/-- The index of the second byte of a word access (R53, R54, and R57 at offset 0xFFFF). -/
def secondByte (c : Config) (addr : Word) : Except Fault Nat :=
  if addr = 0xFFFF then
    match c.wordAtFFFF with
    | .fault => .error (.outOfBounds addr)
    | .wrap  => .ok 0x0000
    | .spill => .ok 0x10000
  else .ok (addr.toNat + 1)

/-- `MemRead(addr, n)`, `n` by the width; a byte is zero-widened (R53, R55, R57). -/
def Memory.load (c : Config) (m : Memory) (addr : Word) (w : Width) : Except Fault Word :=
  match w with
  | .byte => .ok (zext8 (m.read addr.toNat))
  | .word =>
    match secondByte c addr with
    | .error f => .error f
    | .ok k    => .ok (joinBytes (m.read k) (m.read addr.toNat))

/-- `MemWrite(addr, n, v)`, `n` by the width (R54, R55, R57). -/
def Memory.store (c : Config) (m : Memory) (addr : Word) (w : Width) (v : Word) : Except Fault Memory :=
  match w with
  | .byte => .ok (m.write addr.toNat (loByte v))
  | .word =>
    match secondByte c addr with
    | .error f => .error f
    | .ok k    => .ok (Memory.write (m.write addr.toNat (loByte v)) k (hiByte v))

/-! ## The program counter (R31, R161) -/

/-- `pc <- (pc + len) mod 2^16` (R31, R32). -/
def State.advance (s : State) (len : Nat) : State := { s with pc := s.pc + BitVec.ofNat 16 len }

/-- The target of a taken jump, relative to the advanced `pc` (R161). -/
def jumpTarget (pcAfter : Word) (rel : Byte) : Word := pcAfter + sext8 rel

/-! ## Taking a fault (60_exceptions.md R194) -/

/-- `raise <Fault>(info)`: the status becomes `Faulted(cause, info)` and nothing else changes. There is no handler, no
saved state, no mode change, and no return but reset (R194, R196). -/
def State.raise (s : State) (f : Fault) : State := { s with status := .faulted f }

/-- How executing an instruction from `s` (`pc` already advanced) ends the step: its state, or the fault raised on `s`
with nothing else changed (R195). -/
def State.settle (s : State) (r : Result) : Host.Outcome State Fault Refusal :=
  match r with
  | .ok t    => .next t
  | .error f => .next (s.raise f)

end Sys2Proof.Machine
end

