-- ==== Sys2Proof/Machine/Cycle.lean ====
section
/-! DEFINITION. The machine cycle (10_state.md R40) over any decoder and any execution, the fetch (20_memory.md R71), and
the placing of one instruction where the next step fetches. -/

namespace Sys2Proof.Machine

/-- `Fetch(pc)`: six bytes of the program image from index `pc` on, zero filled past its end (R71). -/
def fetch (image : List Byte) (pc : Word) : Window := Window.ofBytes (image.drop pc.toNat)

/-- The fault a refused window raises, with the index of its first byte (R191). -/
def decodeFault (pc : Word) : DecodeError → Fault
  | .unsupportedOpcode b0 b1 => .unsupportedOpcode b0 b1 pc

/-- One step (R40): the identity on `Halted` and `Faulted`; an image longer than 65535 bytes is refused (R221; entry 18);
at or beyond `PROG_LEN` the run halts (R222); else fetch, decode (F1 leaves `pc`), advance, execute. -/
def cycle (dec : Window → Except DecodeError Instr) (run : Instr → State → Host.Outcome State Fault Refusal) (s : State) :
    Host.Outcome State Fault Refusal :=
  match s.status with
  | .halted    => .next s
  | .faulted _ => .next s
  | .running   =>
    if maxProgLen < s.progLen then .refused (.imageTooLong s.progLen)
    else if s.progLen ≤ s.pc.toNat then .next { s with status := .halted }
    else
      match dec (fetch s.image s.pc) with
      | .error e => .next (s.raise (decodeFault s.pc e))
      | .ok i    => run i (s.advance i.len)

/-- A program image with the bytes `bs` at index `at`: the bytes before it are kept (zero filled up to `at`), the bytes
after it are kept, and the whole is cut to the longest image the machine runs. -/
def placeBytes (image : List Byte) (pos : Nat) (bs : List Byte) : List Byte :=
  let before := image.take pos
  ((before ++ List.replicate (pos - before.length) 0) ++ bs ++ image.drop (pos + bs.length)).take maxProgLen

/-- The state in which the next step fetches the six bytes `bs`: they stand in the image at `pc` and the status is
`Running`. Where fewer than six bytes of the longest image follow `pc` (`pc` above 65529), `pc` is set to 0 first (entry
20). -/
def State.withFetchBytes (s : State) (bs : List Byte) : State :=
  let pc : Word := if s.pc.toNat + windowLen ≤ maxProgLen then s.pc else 0
  { s with pc := pc, status := .running, image := placeBytes s.image pc.toNat bs }

end Sys2Proof.Machine
end

