-- ==== Sys2Proof/Machine/Flags.lean ====
section
/-! DEFINITION. The flags word (10_state.md R33), the ALU (41_arith.md R130) and the flag update (R131). -/

namespace Sys2Proof.Machine

/-- `ZF_BIT` (R33, decision D4; entry 12). -/
def zfBit : Nat := 6

/-- `SF_BIT` (R33, decision D4; entry 12). -/
def sfBit : Nat := 7

/-- `flags.ZF`. -/
def State.zf (s : State) : Bool := s.flags.getLsbD zfBit

/-- `flags.SF`. -/
def State.sf (s : State) : Bool := s.flags.getLsbD sfBit

/-- `v` with bit `k` replaced by `b`. -/
def withBit (v : Word) (k : Nat) (b : Bool) : Word :=
  if b then v ||| BitVec.twoPow 16 k else v &&& ~~~(BitVec.twoPow 16 k)

/-- The N of a width: 8 or 16 (R63). -/
def widthBits : Width → Nat
  | .byte => 8
  | .word => 16

/-- `v mod 2^N`. -/
def truncate (w : Width) (v : Word) : Word :=
  match w with
  | .byte => zext8 (loByte v)
  | .word => v

/-- `alu(op, a, b, N)`: the 16-bit sum or difference truncated to the destination width; CMP is a subtraction (R130,
R132). -/
def alu (op : ArithOp) (a b : Word) (w : Width) : Word :=
  match op with
  | .add => truncate w (a + b)
  | .sub => truncate w (a - b)
  | .cmp => truncate w (a - b)

/-- `SetFlags(res, N)`: ZF and SF both written, every other bit of flags unchanged (R131). -/
def State.setFlags (s : State) (res : Word) (w : Width) : State :=
  { s with flags := withBit (withBit s.flags zfBit (res == 0)) sfBit (res.getLsbD (widthBits w - 1)) }

end Sys2Proof.Machine
end

