-- ==== Sys2Proof/Machine/Operands.lean ====
section
/-! DEFINITION. The load-store address translator (20_memory.md R60 to R62) and operand access (R63 to R65). -/

namespace Sys2Proof.Machine

/-- `base(mode)`: the base registers of a mode, summed mod 2^16 (R61). -/
def RegFile.base (x : RegFile) : Base → Word
  | .bxSi => x.bx + x.si
  | .bxDi => x.bx + x.di
  | .bpSi => x.bp + x.si
  | .bpDi => x.bp + x.di
  | .si   => x.si
  | .di   => x.di
  | .bp   => x.bp
  | .bx   => x.bx

/-- The signed displacement as a 16-bit pattern (R61, R96). -/
def dispValue : Disp → Word
  | .none  => 0
  | .d8 d  => sext8 d
  | .d16 d => d

/-- `EA(m)` (R61). -/
def State.ea (s : State) : MemRef → Word
  | .direct a  => a
  | .based b d => s.regs.base b + dispValue d

/-- The value of an immediate (R64, R99). -/
def immValue : Imm → Word
  | .byte v => zext8 v
  | .word v => v

/-- The kind of an operand, for a fault's information (R190). -/
def kindOf : Operand → OperandKind
  | .rm (.reg _) => .register
  | .rm (.mem _) => .memory
  | .imm _       => .immediate
  | .rel8 _      => .rel8

/-- Cause F2 with the operation tag and the operand kinds (R190, R192). -/
def badOperands (op : OpTag) (dst src : Option Operand) : Fault :=
  .unsupportedOperandCombination op (dst.map kindOf) (src.map kindOf)

/-- `OperandRead(o)` (R64). A `rel8` operand is admitted as the source of no instruction; its pattern is given for
totality only (entry 19). -/
def State.operandRead (c : Config) (s : State) : Operand → Except Fault Word
  | .rm (.reg r) => .ok (s.regRead r)
  | .rm (.mem m) => s.mem.load c (s.ea m.ref) m.width
  | .imm i       => .ok (immValue i)
  | .rel8 d      => .ok (zext8 d)

/-- `OperandWrite(o, v)`: a destination is a register or a memory operand (R65). -/
def State.operandWrite (c : Config) (s : State) (dst : RM) (v : Word) : Result :=
  match dst with
  | .reg r => .ok (s.regWrite r v)
  | .mem m =>
    match s.mem.store c (s.ea m.ref) m.width v with
    | .error f => .error f
    | .ok mem  => .ok { s with mem := mem }

end Sys2Proof.Machine
end

