-- ==== Sys2Proof/Machine/Arith.lean ====
section
/-! DEFINITION. ADD, SUB and CMP (41_arith.md). -/

namespace Sys2Proof.Machine

/-- The operation tag of an ALU operation (R89). -/
def arithTag : ArithOp → OpTag
  | .add => .add
  | .sub => .sub
  | .cmp => .cmp

/-- Which source kinds execute beside a register destination (R133). -/
def arithSourceOk (c : Config) : Operand → Bool
  | .rm (.reg _) => true
  | .imm _       => true
  | .rm (.mem _) => c.arithMemSource == .read
  | .rel8 _      => false

/-- The write-back of R134: ADD and SUB store the result, CMP discards it. -/
def State.writeBack (s : State) (op : ArithOp) (r : Reg) (res : Word) : State :=
  match op with
  | .add => s.regWrite r res
  | .sub => s.regWrite r res
  | .cmp => s

/-- `ExecArith` (R134) with the admission of R133: a memory destination, and a memory source where it is not read, are
F2; both reads come before the write, the flags last. -/
def arith (c : Config) (op : ArithOp) (dst src : Operand) (s : State) : Result :=
  match dst, arithSourceOk c src with
  | .rm (.reg r), true =>
    match s.operandRead c src with
    | .error f => .error f
    | .ok b    =>
      let res := alu op (s.regRead r) b r.width
      .ok ((s.writeBack op r res).setFlags res r.width)
  | _, _ => .error (badOperands (arithTag op) (some dst) (some src))

/-- ADD r/m, reg (R135). -/
def execAddRmReg (rm : RM) (r : Reg) (s : State) : Host.Outcome State Fault Refusal :=
  s.settle (arith config .add (.rm rm) (.rm (.reg r)) s)

/-- ADD reg, r/m (R136). -/
def execAddRegRm (r : Reg) (rm : RM) (s : State) : Host.Outcome State Fault Refusal :=
  s.settle (arith config .add (.rm (.reg r)) (.rm rm) s)

/-- ADD r/m, imm (R137). -/
def execAddRmImm (rm : RM) (i : GroupImm) (s : State) : Host.Outcome State Fault Refusal :=
  s.settle (arith config .add (.rm rm) (.imm (i.toImm config)) s)

/-- ADD acc, imm (R138). -/
def execAddAccImm (i : Imm) (s : State) : Host.Outcome State Fault Refusal :=
  s.settle (arith config .add (.rm (.reg (accumulator i.width))) (.imm i) s)

/-- SUB r/m, reg (R139). -/
def execSubRmReg (rm : RM) (r : Reg) (s : State) : Host.Outcome State Fault Refusal :=
  s.settle (arith config .sub (.rm rm) (.rm (.reg r)) s)

/-- SUB reg, r/m (R140). -/
def execSubRegRm (r : Reg) (rm : RM) (s : State) : Host.Outcome State Fault Refusal :=
  s.settle (arith config .sub (.rm (.reg r)) (.rm rm) s)

/-- SUB r/m, imm (R141). -/
def execSubRmImm (rm : RM) (i : GroupImm) (s : State) : Host.Outcome State Fault Refusal :=
  s.settle (arith config .sub (.rm rm) (.imm (i.toImm config)) s)

/-- SUB acc, imm (R142). -/
def execSubAccImm (i : Imm) (s : State) : Host.Outcome State Fault Refusal :=
  s.settle (arith config .sub (.rm (.reg (accumulator i.width))) (.imm i) s)

/-- CMP r/m, reg (R143). -/
def execCmpRmReg (rm : RM) (r : Reg) (s : State) : Host.Outcome State Fault Refusal :=
  s.settle (arith config .cmp (.rm rm) (.rm (.reg r)) s)

/-- CMP reg, r/m (R144). -/
def execCmpRegRm (r : Reg) (rm : RM) (s : State) : Host.Outcome State Fault Refusal :=
  s.settle (arith config .cmp (.rm (.reg r)) (.rm rm) s)

/-- CMP r/m, imm (R145). -/
def execCmpRmImm (rm : RM) (i : GroupImm) (s : State) : Host.Outcome State Fault Refusal :=
  s.settle (arith config .cmp (.rm rm) (.imm (i.toImm config)) s)

/-- CMP acc, imm (R146). -/
def execCmpAccImm (i : Imm) (s : State) : Host.Outcome State Fault Refusal :=
  s.settle (arith config .cmp (.rm (.reg (accumulator i.width))) (.imm i) s)

end Sys2Proof.Machine
end

