-- ==== Sys2Proof/Machine/Jumps.lean ====
section
/-! DEFINITION. The twenty jumps (42_jumps.md): JNE executes, the other nineteen are decode-only. -/

namespace Sys2Proof.Machine

/-- JNE's effect: taken when ZF = 0 (R162). -/
def jumpNotEqual (rel : Byte) (s : State) : State :=
  if s.zf then s else { s with pc := jumpTarget s.pc rel }

/-- Executing a decode-only jump: F2, whatever the flags and registers hold (R163). The recorded operands are those of the
decoded instruction, `dst = Rel8`, `src` absent (R106, R190; entry 16). -/
def decodeOnly (op : OpTag) (rel : Byte) : Result :=
  .error (badOperands op (some (.rel8 rel)) none)

/-- JNE (R162). -/
def execJne (rel : Byte) (s : State) : Host.Outcome State Fault Refusal :=
  s.settle (.ok (jumpNotEqual rel s))

/-- JO, decode-only (R164, R163). -/
def execJo (rel : Byte) (s : State) : Host.Outcome State Fault Refusal :=
  s.settle (decodeOnly .jo rel)

/-- JNO, decode-only (R165, R163). -/
def execJno (rel : Byte) (s : State) : Host.Outcome State Fault Refusal :=
  s.settle (decodeOnly .jno rel)

/-- JB, decode-only (R166, R163). -/
def execJb (rel : Byte) (s : State) : Host.Outcome State Fault Refusal :=
  s.settle (decodeOnly .jb rel)

/-- JNB, decode-only (R167, R163). -/
def execJnb (rel : Byte) (s : State) : Host.Outcome State Fault Refusal :=
  s.settle (decodeOnly .jnb rel)

/-- JE, decode-only (R168, R163). -/
def execJe (rel : Byte) (s : State) : Host.Outcome State Fault Refusal :=
  s.settle (decodeOnly .je rel)

/-- JBE, decode-only (R169, R163). -/
def execJbe (rel : Byte) (s : State) : Host.Outcome State Fault Refusal :=
  s.settle (decodeOnly .jbe rel)

/-- JA, decode-only (R170, R163). -/
def execJa (rel : Byte) (s : State) : Host.Outcome State Fault Refusal :=
  s.settle (decodeOnly .ja rel)

/-- JS, decode-only (R171, R163). -/
def execJs (rel : Byte) (s : State) : Host.Outcome State Fault Refusal :=
  s.settle (decodeOnly .js rel)

/-- JNS, decode-only (R172, R163). -/
def execJns (rel : Byte) (s : State) : Host.Outcome State Fault Refusal :=
  s.settle (decodeOnly .jns rel)

/-- JP, decode-only (R173, R163). -/
def execJp (rel : Byte) (s : State) : Host.Outcome State Fault Refusal :=
  s.settle (decodeOnly .jp rel)

/-- JNP, decode-only (R174, R163). -/
def execJnp (rel : Byte) (s : State) : Host.Outcome State Fault Refusal :=
  s.settle (decodeOnly .jnp rel)

/-- JL, decode-only (R175, R163). -/
def execJl (rel : Byte) (s : State) : Host.Outcome State Fault Refusal :=
  s.settle (decodeOnly .jl rel)

/-- JGE, decode-only (R176, R163). -/
def execJge (rel : Byte) (s : State) : Host.Outcome State Fault Refusal :=
  s.settle (decodeOnly .jge rel)

/-- JLE, decode-only (R177, R163). -/
def execJle (rel : Byte) (s : State) : Host.Outcome State Fault Refusal :=
  s.settle (decodeOnly .jle rel)

/-- JG, decode-only (R178, R163). -/
def execJg (rel : Byte) (s : State) : Host.Outcome State Fault Refusal :=
  s.settle (decodeOnly .jg rel)

/-- LOOPNZ, decode-only (R179, R163). -/
def execLoopnz (rel : Byte) (s : State) : Host.Outcome State Fault Refusal :=
  s.settle (decodeOnly .loopnz rel)

/-- LOOPZ, decode-only (R180, R163). -/
def execLoopz (rel : Byte) (s : State) : Host.Outcome State Fault Refusal :=
  s.settle (decodeOnly .loopz rel)

/-- LOOP, decode-only (R181, R163). -/
def execLoop (rel : Byte) (s : State) : Host.Outcome State Fault Refusal :=
  s.settle (decodeOnly .loop rel)

/-- JCXZ, decode-only (R182, R163). -/
def execJcxz (rel : Byte) (s : State) : Host.Outcome State Fault Refusal :=
  s.settle (decodeOnly .jcxz rel)

end Sys2Proof.Machine
end

