-- ==== Sys2Proof/Machine/Mov.lean ====
section
/-! DEFINITION. MOV (40_mov.md). -/

namespace Sys2Proof.Machine

/-- The destination of a valid MOV operand pair of one width (R127); `none` for every other pair. -/
def movTarget : Operand → Operand → Option RM
  | .rm (.reg d), .rm (.reg r) => if d.width = r.width then some (.reg d) else none
  | .rm (.reg d), .rm (.mem m) => if d.width = m.width then some (.reg d) else none
  | .rm (.reg d), .imm i       => if d.width = i.width then some (.reg d) else none
  | .rm (.mem m), .rm (.reg r) => if m.width = r.width then some (.mem m) else none
  | .rm (.mem m), .imm i       => if m.width = i.width then some (.mem m) else none
  | .rm (.mem _), .rm (.mem _) => none
  | .rm _,        .rel8 _      => none
  | .imm _,       _            => none
  | .rel8 _,      _            => none

/-- `ExecMOV` (R120): the whole read of the source, then the write; an invalid pair is F2 (R127). -/
def mov (c : Config) (dst src : Operand) (s : State) : Result :=
  match movTarget dst src with
  | none   => .error (badOperands .mov (some dst) (some src))
  | some d =>
    match s.operandRead c src with
    | .error f => .error f
    | .ok v    => s.operandWrite c d v

/-- MOV r/m, reg (R121). -/
def execMovRmReg (rm : RM) (r : Reg) (s : State) : Host.Outcome State Fault Refusal :=
  s.settle (mov config (.rm rm) (.rm (.reg r)) s)

/-- MOV reg, r/m (R122). -/
def execMovRegRm (r : Reg) (rm : RM) (s : State) : Host.Outcome State Fault Refusal :=
  s.settle (mov config (.rm (.reg r)) (.rm rm) s)

/-- MOV r/m, imm (R123). -/
def execMovRmImm (rm : RM) (i : Imm) (s : State) : Host.Outcome State Fault Refusal :=
  s.settle (mov config (.rm rm) (.imm i) s)

/-- MOV reg, imm (R124). -/
def execMovRegImm (r : Reg) (i : Imm) (s : State) : Host.Outcome State Fault Refusal :=
  s.settle (mov config (.rm (.reg r)) (.imm i) s)

/-- MOV acc, [addr] (R125). -/
def execMovAccMem (w : Width) (addr : Word) (s : State) : Host.Outcome State Fault Refusal :=
  s.settle (mov config (.rm (.reg (accumulator w))) (.rm (directOperand w addr)) s)

/-- MOV [addr], acc (R126). -/
def execMovMemAcc (addr : Word) (w : Width) (s : State) : Host.Outcome State Fault Refusal :=
  s.settle (mov config (.rm (directOperand w addr)) (.rm (.reg (accumulator w))) s)

end Sys2Proof.Machine
end

