-- ==== Sys2Proof/Machine/Dispatch.lean ====
section
/-! DEFINITION. exec: sub-step 5 of the machine cycle (10_state.md R40), one arm per instruction; pc is already advanced. -/

namespace Sys2Proof.Machine

def exec (i : Instr) (s : State) : Host.Outcome State Fault Refusal :=
  match i with
  | .movRmReg rm r => Sys2Proof.Machine.execMovRmReg rm r s
  | .movRegRm r rm => Sys2Proof.Machine.execMovRegRm r rm s
  | .movRmImm rm imm => Sys2Proof.Machine.execMovRmImm rm imm s
  | .movRegImm r imm => Sys2Proof.Machine.execMovRegImm r imm s
  | .movAccMem w a => Sys2Proof.Machine.execMovAccMem w a s
  | .movMemAcc a w => Sys2Proof.Machine.execMovMemAcc a w s
  | .addRmReg rm r => Sys2Proof.Machine.execAddRmReg rm r s
  | .addRegRm r rm => Sys2Proof.Machine.execAddRegRm r rm s
  | .addRmImm rm imm => Sys2Proof.Machine.execAddRmImm rm imm s
  | .addAccImm imm => Sys2Proof.Machine.execAddAccImm imm s
  | .subRmReg rm r => Sys2Proof.Machine.execSubRmReg rm r s
  | .subRegRm r rm => Sys2Proof.Machine.execSubRegRm r rm s
  | .subRmImm rm imm => Sys2Proof.Machine.execSubRmImm rm imm s
  | .subAccImm imm => Sys2Proof.Machine.execSubAccImm imm s
  | .cmpRmReg rm r => Sys2Proof.Machine.execCmpRmReg rm r s
  | .cmpRegRm r rm => Sys2Proof.Machine.execCmpRegRm r rm s
  | .cmpRmImm rm imm => Sys2Proof.Machine.execCmpRmImm rm imm s
  | .cmpAccImm imm => Sys2Proof.Machine.execCmpAccImm imm s
  | .jo rel => Sys2Proof.Machine.execJo rel s
  | .jno rel => Sys2Proof.Machine.execJno rel s
  | .jb rel => Sys2Proof.Machine.execJb rel s
  | .jnb rel => Sys2Proof.Machine.execJnb rel s
  | .je rel => Sys2Proof.Machine.execJe rel s
  | .jne rel => Sys2Proof.Machine.execJne rel s
  | .jbe rel => Sys2Proof.Machine.execJbe rel s
  | .ja rel => Sys2Proof.Machine.execJa rel s
  | .js rel => Sys2Proof.Machine.execJs rel s
  | .jns rel => Sys2Proof.Machine.execJns rel s
  | .jp rel => Sys2Proof.Machine.execJp rel s
  | .jnp rel => Sys2Proof.Machine.execJnp rel s
  | .jl rel => Sys2Proof.Machine.execJl rel s
  | .jge rel => Sys2Proof.Machine.execJge rel s
  | .jle rel => Sys2Proof.Machine.execJle rel s
  | .jg rel => Sys2Proof.Machine.execJg rel s
  | .loopnz rel => Sys2Proof.Machine.execLoopnz rel s
  | .loopz rel => Sys2Proof.Machine.execLoopz rel s
  | .loop rel => Sys2Proof.Machine.execLoop rel s
  | .jcxz rel => Sys2Proof.Machine.execJcxz rel s

end Sys2Proof.Machine
end

