-- ==== Sys2Proof/Machine/Step.lean ====
section
/-! DEFINITION. The step of the machine (10_state.md R40). -/

namespace Sys2Proof.Machine

/-- One step of the machine, under the decided parameters. -/
def step (s : State) : Host.Outcome State Fault Refusal := cycle decode exec s

/-- `s` with the instruction of the table-numbered word `w` where `step` fetches next (entries 1, 17, 20). -/
def State.withFetchWord (s : State) (nbits w : Nat) : State := s.withFetchBytes (tableBytes nbits w)

end Sys2Proof.Machine
end

