-- ==== Sys2Proof/Machine/Interface.lean ====
section
/-! DEFINITION. What the host does to the machine: reset, supplying the program image, and reading the output state
(00_scope.md R5, R7, R8; 70_reset_and_hazards.md R220, R221, R223). -/

namespace Sys2Proof.Machine

/-- The input `reset`: every piece of state at its reset value, all at once (R8, R220); the program image, an argument of
the machine, stays. -/
def State.assertReset (s : State) : State := { State.reset with image := s.image }

/-- The host supplies the image and asserts reset (R221, R223); an image longer than 65535 bytes is refused. -/
def State.boot (image : List Byte) : Host.Outcome State Fault Refusal :=
  if maxProgLen < image.length then .refused (.imageTooLong image.length)
  else .next { State.reset with image := image }

/-- The "Output state" (R7): the eight word registers, FLAGS, pc and the data memory. -/
structure Output where
  regs  : RegFile
  flags : Word
  pc    : Word
  mem   : Memory
  deriving DecidableEq, Repr

/-- What the host may read: the output state, when the status is `Halted` (R7, R223); nothing otherwise (R194). -/
def State.output (s : State) : Option Output :=
  match s.status with
  | .halted    => some ⟨s.regs, s.flags, s.pc, s.mem⟩
  | .running   => none
  | .faulted _ => none

end Sys2Proof.Machine
end

