-- ==== Sys2Proof/Machine/Listing.lean ====
section
/-! DEFINITION. The text of a decoded instruction (30_encoding.md R114 to R117). It is outside the CORE (00_scope.md R4):
no step calls it. -/

namespace Sys2Proof.Machine

/-- The lowercase name of a register (R115). -/
def regText : Reg → String
  | .byte .al => "al"
  | .byte .cl => "cl"
  | .byte .dl => "dl"
  | .byte .bl => "bl"
  | .byte .ah => "ah"
  | .byte .ch => "ch"
  | .byte .dh => "dh"
  | .byte .bh => "bh"
  | .word .ax => "ax"
  | .word .cx => "cx"
  | .word .dx => "dx"
  | .word .bx => "bx"
  | .word .sp => "sp"
  | .word .bp => "bp"
  | .word .si => "si"
  | .word .di => "di"

/-- `byte` or `word` (R115, R116). -/
def widthText : Width → String
  | .byte => "byte"
  | .word => "word"

/-- The base registers of a mode (R94, column "text"). -/
def baseText : Base → String
  | .bxSi => "bx + si"
  | .bxDi => "bx + di"
  | .bpSi => "bp + si"
  | .bpDi => "bp + di"
  | .si   => "si"
  | .di   => "di"
  | .bp   => "bp"
  | .bx   => "bx"

/-- A signed number in decimal with an explicit sign, `+0` for zero (R115, R116, decision D20). -/
def signedText (n : Int) : String :=
  if n < 0 then "-" ++ toString n.natAbs else "+" ++ toString n.natAbs

/-- The base expression of a memory operand (R115). -/
def memRefText : MemRef → String
  | .direct a         => toString a.toNat
  | .based b .none    => baseText b
  | .based b (.d8 d)  => baseText b ++ " " ++ signedText d.toInt
  | .based b (.d16 d) => baseText b ++ " " ++ signedText d.toInt

/-- The text of an operand (R115, R116). -/
def operandText : Operand → String
  | .rm (.reg r)     => regText r
  | .rm (.mem m)     => widthText m.width ++ " [" ++ memRefText m.ref ++ "]"
  | .imm (.byte v)   => "byte " ++ toString v.toNat
  | .imm (.word v)   => "word " ++ toString v.toNat
  | .rel8 d          => signedText d.toInt

/-- The mnemonic (R117). -/
def opText : OpTag → String
  | .mov    => "mov"
  | .add    => "add"
  | .sub    => "sub"
  | .cmp    => "cmp"
  | .jo     => "jo"
  | .jno    => "jno"
  | .jb     => "jb"
  | .jnb    => "jnb"
  | .je     => "je"
  | .jne    => "jne"
  | .jbe    => "jbe"
  | .ja     => "ja"
  | .js     => "js"
  | .jns    => "jns"
  | .jp     => "jp"
  | .jnp    => "jnp"
  | .jl     => "jl"
  | .jge    => "jge"
  | .jle    => "jle"
  | .jg     => "jg"
  | .loopnz => "loopnz"
  | .loopz  => "loopz"
  | .loop   => "loop"
  | .jcxz   => "jcxz"

/-- The text of a decoded instruction: mnemonic, destination, then a comma and the source (R114). -/
def listing (d : Decoded) : String :=
  opText d.op
    ++ (match d.dst with
        | none   => ""
        | some o => " " ++ operandText o)
    ++ (match d.src with
        | none   => ""
        | some o => ", " ++ operandText o)

end Sys2Proof.Machine
end

