-- ==== Sys2Proof/Machine/Variants.lean ====
section
/-! DEFINITION. The same machine written as the spec writes it, over the decoded record of 30_encoding.md R106 and under
any parameters of 00_scope.md R9: every alternative of R57, R82, R100, R104 and R133 runs here. -/

namespace Sys2Proof.Machine

/-- "execute inst by its operation tag" (R40 sub-step 5), total over the decoded-instruction type: an operation with no
defined semantics for its operands is F2 (R127, R163, R192). -/
def execDecoded (c : Config) (d : Decoded) (s : State) : Result :=
  match d.op, d.dst, d.src with
  | .mov, some dst,         some src => mov c dst src s
  | .add, some dst,         some src => arith c .add dst src s
  | .sub, some dst,         some src => arith c .sub dst src s
  | .cmp, some dst,         some src => arith c .cmp dst src s
  | .jne, some (.rel8 rel), none     => .ok (jumpNotEqual rel s)
  | op,   dst,              src      => .error (badOperands op dst src)

/-- The step of the machine with the parameters `c`. -/
def stepWith (c : Config) (s : State) : Host.Outcome State Fault Refusal :=
  cycle (decodeWith c) (fun i t => t.settle (execDecoded c (i.decoded c) t)) s

end Sys2Proof.Machine
end

