-- ==== Sys2Proof/Safety.lean ====
section
/-! DEFINITION. What claims are stated in: the invariant of the machine, the ends of a run, what one instruction may
change, and the spec's tables as plain lists. -/

namespace Sys2Proof.Machine

/-! ## The invariant and the ends of a run -/

/-- The data memory is canonical (the model's representation, entry 4) and nothing beyond the offsets 0x0000 to 0xFFFF is
listed (20_memory.md R51, its own inference, under decision D8, entry 6). -/
abbrev Memory.Reachable (m : Memory) : Prop := m.wf ∧ ∀ e ∈ m, e.1 < 0x10000

/-- The flags word: the fourteen unimplemented bits are 0 (10_state.md R33), ZF and SF are not both 1 (41_arith.md
R131). -/
abbrev State.FlagsLegal (s : State) : Prop := s.flags &&& 0xFF3F = 0 ∧ ¬(s.zf ∧ s.sf)

/-- What every state of a run satisfies. -/
abbrev State.Inv (s : State) : Prop :=
  s.mem.Reachable ∧ s.FlagsLegal ∧ s.progLen ≤ maxProgLen

/-- `k` steps from `s` end in `t`. -/
abbrev State.StepsTo (s : State) (k : Nat) (t : State) : Prop :=
  Host.Core.run Sys2Proof.core k s = Host.Outcome.next t

/-- The only successful end of a run: the status is `Halted` (70_reset_and_hazards.md R222). A faulted state is never
one (60_exceptions.md R194). -/
abbrev State.SuccessfulEnd (s : State) : Prop := s.status = .halted

/-- The status is `Faulted` (R38): no register or memory of such a state is a result (R194). -/
abbrev State.IsFaulted (s : State) : Prop := ∃ f, s.status = .faulted f

/-! ## What one instruction changes -/

/-- Two register names share storage (10_state.md R22, R26). -/
def overlaps : Reg → Reg → Bool
  | .word a, .word b => a == b
  | .word a, .byte b => a == byteParent b
  | .byte a, .word b => byteParent a == b
  | .byte a, .byte b => a == b

/-- From `s` to `t` the register `d` received `v` and nothing else changed: every register name sharing no storage with
`d` (the sibling half of a byte register among them), pc, flags, memory, the status and the program image. -/
structure WroteReg (d : Reg) (v : Word) (s t : State) : Prop where
  value  : t.regRead d = v
  others : ∀ r, overlaps d r = false → t.regRead r = s.regRead r
  pc     : t.pc = s.pc
  flags  : t.flags = s.flags
  mem    : t.mem = s.mem
  status : t.status = s.status
  image  : t.image = s.image

/-- From `s` to `t` the `w`-wide value `v` was stored at offset `a`, low byte first, and nothing else changed: every other
byte of memory reads as before. -/
structure Stored (w : Width) (a : Word) (v : Word) (s t : State) : Prop where
  low    : t.mem.read a.toNat = loByte v
  high   : w = .word → t.mem.read (a.toNat + 1) = hiByte v
  others : ∀ k, k ≠ a.toNat → ¬(w = .word ∧ k = a.toNat + 1) → t.mem.read k = s.mem.read k
  regs   : t.regs = s.regs
  pc     : t.pc = s.pc
  flags  : t.flags = s.flags
  status : t.status = s.status
  image  : t.image = s.image

/-- The flags of `t` are those of the `w`-wide result `res` (41_arith.md R131): ZF iff it is zero, SF its top bit, every
other bit of the flags word as in `s`. -/
structure FlagsOf (w : Width) (res : Nat) (s t : State) : Prop where
  zf     : t.zf = decide (res = 0)
  sf     : t.sf = res.testBit (widthBits w - 1)
  others : ∀ k, k ≠ zfBit → k ≠ sfBit → t.flags.getLsbD k = s.flags.getLsbD k

/-- `alu(op, a, b, N)` on unbounded integers (R11, R130): the non-negative residue mod 2^N. -/
def exactResult (op : ArithOp) (a b : Word) (w : Width) : Nat :=
  match op with
  | .add => (a.toNat + b.toNat) % 2 ^ widthBits w
  | .sub => (((a.toNat : Int) - b.toNat) % (2 ^ widthBits w : Nat)).toNat
  | .cmp => (((a.toNat : Int) - b.toNat) % (2 ^ widthBits w : Nat)).toNat

/-- From `s` to `t` the register `d` received the result of `op` on itself and `b` at its own width, the flags are those of
the result, and nothing else changed (R134). -/
structure Computed (op : ArithOp) (d : Reg) (b : Word) (s t : State) : Prop where
  value  : (t.regRead d).toNat = exactResult op (s.regRead d) b d.width
  others : ∀ r, overlaps d r = false → t.regRead r = s.regRead r
  flags  : FlagsOf d.width (exactResult op (s.regRead d) b d.width) s t
  pc     : t.pc = s.pc
  mem    : t.mem = s.mem
  status : t.status = s.status
  image  : t.image = s.image

/-- From `s` to `t` the flags became those of `d - b` at the width of `d`, and nothing else changed: no register, no byte
of memory (R134, CMP). -/
structure Compared (d : Reg) (b : Word) (s t : State) : Prop where
  flags  : FlagsOf d.width (exactResult .cmp (s.regRead d) b d.width) s t
  regs   : t.regs = s.regs
  pc     : t.pc = s.pc
  mem    : t.mem = s.mem
  status : t.status = s.status
  image  : t.image = s.image

/-- The signed displacement of a displacement class (R61, R96). -/
def signedDisp : Disp → Int
  | .none  => 0
  | .d8 d  => d.toInt
  | .d16 d => d.toInt

/-- A `w`-wide access at offset `a` stays inside what a 16-bit offset can name: not a word at 0xFFFF (20_memory.md
R57). -/
abbrev InRange (w : Width) (a : Word) : Prop := ¬(w = .word ∧ a = 0xFFFF)

/-- The `w`-wide little-endian value at offset `a` (R53, R55), read byte by byte. -/
def State.bytesAt (s : State) (w : Width) (a : Word) : Word :=
  match w with
  | .byte => zext8 (s.mem.read a.toNat)
  | .word => joinBytes (s.mem.read (a.toNat + 1)) (s.mem.read a.toNat)

/-! ## The spec's tables and shapes -/

/-- The register table of a width, in encoding order (R21, R22). -/
def registerTable : Width → List Reg
  | .byte => [.byte .al, .byte .cl, .byte .dl, .byte .bl, .byte .ah, .byte .ch, .byte .dh, .byte .bh]
  | .word => [.word .ax, .word .cx, .word .dx, .word .bx, .word .sp, .word .bp, .word .si, .word .di]

/-- The base combinations in the order of the rm field (R94). -/
def baseTable : List Base := [.bxSi, .bxDi, .bpSi, .bpDi, .si, .di, .bp, .bx]

/-- The operand of an instruction that mod and rm select, in the formats that have a modrm byte (R81). -/
def modrmOperand : Instr → Option RM
  | .movRmReg rm _ | .addRmReg rm _ | .subRmReg rm _ | .cmpRmReg rm _ => some rm
  | .movRegRm _ rm | .addRegRm _ rm | .subRegRm _ rm | .cmpRegRm _ rm => some rm
  | .movRmImm rm _ => some rm
  | .addRmImm rm _ | .subRmImm rm _ | .cmpRmImm rm _ => some rm
  | .movRegImm _ _ | .movAccMem _ _ | .movMemAcc _ _ | .addAccImm _ | .subAccImm _ | .cmpAccImm _ => none
  | .jo _  | .jno _ | .jb _ | .jnb _ | .je _  | .jne _ | .jbe _ | .ja _ => none
  | .js _  | .jns _ | .jp _ | .jnp _ | .jl _  | .jge _ | .jle _ | .jg _ => none
  | .loopnz _ | .loopz _ | .loop _ | .jcxz _ => none

/-- The register of an instruction that the middle field of the modrm byte names, in format RM (R81, R98). -/
def modrmRegister : Instr → Option Reg
  | .movRmReg _ r | .addRmReg _ r | .subRmReg _ r | .cmpRmReg _ r => some r
  | .movRegRm r _ | .addRegRm r _ | .subRegRm r _ | .cmpRegRm r _ => some r
  | .movRmImm _ _ | .movRegImm _ _ | .movAccMem _ _ | .movMemAcc _ _ => none
  | .addRmImm _ _ | .subRmImm _ _ | .cmpRmImm _ _ | .addAccImm _ | .subAccImm _ | .cmpAccImm _ => none
  | .jo _  | .jno _ | .jb _ | .jnb _ | .je _  | .jne _ | .jbe _ | .ja _ => none
  | .js _  | .jns _ | .jp _ | .jnp _ | .jl _  | .jge _ | .jle _ | .jg _ => none
  | .loopnz _ | .loopz _ | .loop _ | .jcxz _ => none

/-- How many immediate bytes end an instruction (R99, R100). -/
def immediateLen : Instr → Nat
  | .movRmReg _ _ | .addRmReg _ _ | .subRmReg _ _ | .cmpRmReg _ _ => 0
  | .movRegRm _ _ | .addRegRm _ _ | .subRegRm _ _ | .cmpRegRm _ _ => 0
  | .movRmImm _ i | .movRegImm _ i => i.len
  | .addRmImm _ i | .subRmImm _ i | .cmpRmImm _ i => i.len
  | .addAccImm i | .subAccImm i | .cmpAccImm i => i.len
  | .movAccMem _ _ | .movMemAcc _ _ => 0
  | .jo _  | .jno _ | .jb _ | .jnb _ | .je _  | .jne _ | .jbe _ | .ja _ => 0
  | .js _  | .jns _ | .jp _ | .jnp _ | .jl _  | .jge _ | .jle _ | .jg _ => 0
  | .loopnz _ | .loopz _ | .loop _ | .jcxz _ => 0

/-- The 188 first bytes of R83. -/
def unsupportedFirstByte (b : Nat) : Bool :=
  [(0x06, 0x27), (0x2E, 0x37), (0x3E, 0x6F), (0x84, 0x87), (0x8C, 0x9F), (0xA4, 0xAF), (0xC0, 0xC5), (0xC8, 0xDF),
    (0xE4, 0xFF)].any fun r => r.1 ≤ b && b ≤ r.2

/-- One of the five operand-kind pairs of MOV (R127), in the decoded record's slots. -/
def movKindsValid : Option OperandKind → Option OperandKind → Bool
  | some .register, some .register  => true
  | some .register, some .memory    => true
  | some .register, some .immediate => true
  | some .memory,   some .register  => true
  | some .memory,   some .immediate => true
  | _,              _               => false

/-- `OpWidth(o)` (R63); a jump displacement has none. -/
def opWidth : Operand → Option Width
  | .rm o   => some o.width
  | .imm i  => some i.width
  | .rel8 _ => none

/-- The instruction stores to data memory: a MOV whose destination is a memory operand (R58). -/
def storesTo : Instr → Option MemOperand
  | .movRmReg (.mem m) _ => some m
  | .movRmImm (.mem m) _ => some m
  | .movMemAcc a w       => some ⟨.direct a, w⟩
  | _                    => none

/-- The instruction loads from data memory: a MOV whose source is a memory operand (R58). -/
def loadsFrom : Instr → Option MemOperand
  | .movRegRm _ (.mem m) => some m
  | .movAccMem w a       => some ⟨.direct a, w⟩
  | _                    => none

end Sys2Proof.Machine
end

