-- ==== Sys2Proof/Certificates/Slice0/Obligations.lean ====
section
/-! DEFINITION. The statements for the provers. Each docstring names the rule of spec/ it formalises, or says that it rests
on a decision of the spec (D<n>) or on a choice of the model (the entry of notes/assumptions/). -/

open Sys2Proof Sys2Proof.Machine

/-! ## Decoding -/

/-- The source's four byte examples (95_test_vectors.md S1 to S4) and one word of every other family decode to the
instructions they stand for, with their lengths. First bytes 89, 8B and A1 are the source's own; the bytes of the ADD, SUB,
CMP, JNE and LOOP words rest on decision D13 (entry 11). A sanity statement. -/
def Obligations.SpelledOutWordsDecode : Prop :=
  ∀ p ∈ [
      (([0x89, 0xD9] : List Byte), Instr.movRmReg (.reg (.word .cx)) (.word .bx), 2),
      ([0xA1, 0x21, 0x00], .movAccMem .word 33, 3),
      ([0x8B, 0x5C, 0x21], .movRegRm (.word .bx) (.mem ⟨.based .si (.d8 33), .word⟩), 3),
      ([0x8B, 0x94, 0xD0, 0x07], .movRegRm (.word .dx) (.mem ⟨.based .si (.d16 2000), .word⟩), 4),
      ([0x01, 0xD8], .addRmReg (.reg (.word .ax)) (.word .bx), 2),
      ([0x2A, 0xC3], .subRegRm (.byte .al) (.reg (.byte .bl)), 2),
      ([0x83, 0xF9, 0x00], .cmpRmImm (.reg (.word .cx)) (.short 0), 3),
      ([0x75, 0xF8], .jne 0xF8, 2),
      ([0xE2, 0xFC], .loop 0xFC, 2)],
    decode (Window.ofBytes p.1) = .ok p.2.1 ∧ p.2.1.len = p.2.2

/-- Decode and encode agree: every well-formed instruction, with every operand at every value the encoding admits, is
what its own bytes decode to, whatever bytes follow. That the eight unnamed forms decode is decision D10 (entry 8),
that 82 decodes is D14; the `s` bit kept for it is the model's choice (entry 15). -/
def Obligations.DecodeOfEncodeIsIdentity : Prop :=
  ∀ (i : Instr), i.WellFormed → ∀ rest : List Byte, decode (Window.ofBytes (encode i ++ rest)) = .ok i

/-- The other direction: a window that decodes gives a well-formed instruction, and the bytes it consumed are that
instruction's encoding; so every accepted byte sequence has one meaning and no bit of it is dropped. That no bit is dropped
is the model's choice, not a rule of the spec: R109 decodes 82 to the same record as 80 (decision D14), and the term of
`Instr` keeps the `s` bit that tells them apart (entry 15); the reg field of C6 and C7 is fixed at 000 by decision D11
(entry 9). -/
def Obligations.EncodeOfDecodeIsConsumedBytes : Prop :=
  ∀ (win : Window) (i : Instr), decode win = .ok i → i.WellFormed ∧ encode i = win.bytes.take i.len

/-- R110, under all parameters: Decode is total; it gives an instruction whose length never exceeds the window, or raises
unsupported opcode with the first two bytes. -/
def Obligations.DecodeIsTotalAndStaysInTheWindow : Prop :=
  ∀ (c : Config) (win : Window),
    (∃ i, decodeWith c win = .ok i ∧ 2 ≤ i.len ∧ i.len ≤ windowLen) ∨
    decodeWith c win = .error (.unsupportedOpcode win.b0 win.b1)

/-- The operation and the length depend on the first two bytes only (R113, which the spec marks as its own inference), and
so does the row of the opcode table (R118). -/
def Obligations.FirstTwoBytesFixOperationAndLength : Prop :=
  ∀ (c : Config) (win win' : Window) (i : Instr), win'.b0 = win.b0 → win'.b1 = win.b1 → decodeWith c win = .ok i →
    ∃ j, decodeWith c win' = .ok j ∧ j.op = i.op ∧ j.len = i.len ∧ j.row = i.row

/-- Unsupported opcode is raised for exactly these windows: the 188 first bytes of R83 (decision D13; A2, A3, 04, 05,
2C, 2D, 3C, 3D are not among them by D10); first byte 80 to 83 with a sub-op other than 000, 101, 111 (R103, decision
D19); first byte C6 or C7 with reg field not 000 (R104, decision D11). That 82 with sub-op 000, 101 or 111 does not
raise is R86 with decision D14 (entry 15). -/
def Obligations.UnsupportedOpcodesAreExactly : Prop :=
  ∀ win : Window,
    decode win = .error (.unsupportedOpcode win.b0 win.b1) ↔
      unsupportedFirstByte win.b0.toNat = true ∨
      (0x80 ≤ win.b0.toNat ∧ win.b0.toNat ≤ 0x83 ∧ win.b1.toNat / 8 % 8 ∉ [0, 5, 7]) ∨
      (0xC6 ≤ win.b0.toNat ∧ win.b0.toNat ≤ 0xC7 ∧ win.b1.toNat / 8 % 8 ≠ 0)

/-- Under `ADMIT_UNNAMED_FORMS = false` the eight first bytes A2, A3, 04, 05, 2C, 2D, 3C, 3D are unsupported and every
other window decodes as before (R82, decision D10). -/
def Obligations.UnnamedFormsAreTheEightFirstBytes : Prop :=
  ∀ (c : Config) (win : Window),
    decodeWith { c with admitUnnamedForms := false } win =
      if win.b0.toNat ∈ [0xA2, 0xA3, 0x04, 0x05, 0x2C, 0x2D, 0x3C, 0x3D]
      then .error (.unsupportedOpcode win.b0 win.b1)
      else decodeWith { c with admitUnnamedForms := true } win

/-- The decoder follows spec/opcode_table.json (R118): a decoded instruction's row selects the window, and a window
that a row selects decodes to an instruction of that row. So no two rows select one window. Which windows its rows
select rests on decisions D10, D11, D13, D14 and D19. -/
def Obligations.DecoderAgreesWithTheOpcodeTable : Prop :=
  (∀ (win : Window) (i : Instr), decode win = .ok i → i.row.Selects win) ∧
  (∀ (win : Window) (i : Instr), i.row.Selects win → ∃ j, decode win = .ok j ∧ j.row = i.row)

/-- First byte 0x82 decodes and executes exactly as 0x80 (decision D14): the same operation, length and operands, and
the same outcome from every state. -/
def Obligations.FirstByte82ActsAs80 : Prop :=
  ∀ (c : Config) (win : Window) (i : Instr), win.b0 = 0x80 → decodeWith c win = .ok i →
    ∃ j, decodeWith c { win with b0 := 0x82 } = .ok j ∧ j.decoded c = i.decoded c ∧ ∀ s, exec j s = exec i s

/-- R91, R93, R95, R96 (with the base of the rm field, R94), for every instruction with a modrm byte: mod = 11 is the
register of the rm field at the instruction's width, no displacement byte; mod = 00 with rm = 110 is the direct address of
the next two bytes, low byte first, no register taking part; the other mods are the base of the rm field with no, an 8-bit
or a 16-bit displacement, signed, of 0, 1 or 2 bytes. The displacement bytes stand between the modrm byte and the immediate
bytes. Fields and tables are written as numbers. -/
def Obligations.ModrmByteSelectsTheOperand : Prop :=
  ∀ (win : Window) (i : Instr) (o : RM), decode win = .ok i → modrmOperand i = some o →
    let w := if win.b0.toNat % 2 = 1 then Width.word else Width.byte
    let mod := win.b1.toNat / 64
    let rm := win.b1.toNat % 8
    let wide := win.b2.toNat + 256 * win.b3.toNat
    (mod = 3 → i.len = 2 + immediateLen i ∧ ∃ r, (registerTable w)[rm]? = some r ∧ o = .reg r) ∧
    (mod = 0 → rm = 6 → i.len = 4 + immediateLen i ∧
      ∃ a : Word, a.toNat = wide ∧ o = .mem ⟨.direct a, w⟩ ∧ ∀ s : State, s.ea (.direct a) = a) ∧
    (mod = 0 → rm ≠ 6 → i.len = 2 + immediateLen i ∧ ∃ b, baseTable[rm]? = some b ∧ o = .mem ⟨.based b .none, w⟩) ∧
    (mod = 1 → i.len = 3 + immediateLen i ∧
      signedDisp (.d8 win.b2) = (if win.b2.toNat < 128 then (win.b2.toNat : Int) else win.b2.toNat - 256) ∧
      ∃ b, baseTable[rm]? = some b ∧ o = .mem ⟨.based b (.d8 win.b2), w⟩) ∧
    (mod = 2 → i.len = 4 + immediateLen i ∧
      ∃ b, ∃ d : Word, baseTable[rm]? = some b ∧ d.toNat = wide ∧
        signedDisp (.d16 d) = (if wide < 32768 then (wide : Int) else wide - 65536) ∧
        o = .mem ⟨.based b (.d16 d), w⟩)

/-- R98, for the eight instructions of format RM (MOV, ADD, SUB, CMP): the reg field names a register of the instruction's
width; `d = 0` makes the rm operand the destination and that register the source, `d = 1` the reverse. So each operation
on two registers has two encodings, one instruction in effect. -/
def Obligations.DirectionBitSelectsTheDestination : Prop :=
  (∀ (c : Config) (win : Window) (i : Instr) (o : RM) (r : Reg), decodeWith c win = .ok i →
    modrmOperand i = some o → modrmRegister i = some r →
    let w := if win.b0.toNat % 2 = 1 then Width.word else Width.byte
    (registerTable w)[win.b1.toNat / 8 % 8]? = some r ∧
    (win.b0.toNat / 2 % 2 = 0 → i.operands c = (some (.rm o), some (.rm (.reg r)))) ∧
    (win.b0.toNat / 2 % 2 = 1 → i.operands c = (some (.rm (.reg r)), some (.rm o)))) ∧
  (∀ (c : Config) (a b : Reg),
    ∀ p ∈ [(Instr.movRmReg (.reg a) b, Instr.movRegRm a (.reg b)), (.addRmReg (.reg a) b, .addRegRm a (.reg b)),
      (.subRmReg (.reg a) b, .subRegRm a (.reg b)), (.cmpRmReg (.reg a) b, .cmpRegRm a (.reg b))],
      p.1.decoded c = p.2.decoded c ∧ encode p.1 ≠ encode p.2)

/-- The one-byte immediate of first byte 0x83 is its byte sign-extended to 16 bits (decision D9); under `IMM_S_EXTEND =
zero` it is the byte. -/
def Obligations.GroupImmediateIsSignExtended : Prop :=
  ∀ v : Byte,
    (∃ x : Word, GroupImm.toImm config (.short v) = .word x ∧
      x.toNat = if v.toNat < 0x80 then v.toNat else 0xFF00 + v.toNat) ∧
    GroupImm.toImm { config with immSExtend := .zero } (.short v) = .byte v

/-- The twenty jumps always decode, to length 2 with `rel8` as destination and no source (R160; the byte values are
decision D13, the `rel8` operand is D23). -/
def Obligations.JumpsAlwaysDecode : Prop :=
  ∀ (c : Config) (win : Window),
    (0x70 ≤ win.b0.toNat ∧ win.b0.toNat ≤ 0x7F) ∨ (0xE0 ≤ win.b0.toNat ∧ win.b0.toNat ≤ 0xE3) →
    ∃ i, decodeWith c win = .ok i ∧ i.len = 2 ∧ i.operands c = (some (.rel8 win.b1), none) ∧
      i.op ∉ [OpTag.mov, .add, .sub, .cmp]

/-- Every MOV the decoder produces is one of the five valid operand-kind pairs, and destination and source have one width
(R127, R63, which the spec marks as its own inferences). -/
def Obligations.DecodedMovPairsAreValid : Prop :=
  ∀ (win : Window) (i : Instr), decode win = .ok i → i.op = .mov →
    ∃ d s, i.operands config = (some d, some s) ∧ movKindsValid (some (kindOf d)) (some (kindOf s)) = true ∧
      opWidth d = opWidth s

/-! ## Registers -/

/-- R24, R25: a word name is its cell; a byte name is the low or the high half of its parent. A write replaces that, keeps
the other half, every other cell, pc and flags (and memory, status and image); a read of a byte name is that half. -/
def Obligations.RegisterNamesReadAndWriteTheirCells : Prop :=
  ∀ (s : State) (v : Word),
    (∀ r : WordReg, s.regRead (.word r) = s.regs.get r ∧ (s.regWrite (.word r) v).regs.get r = v ∧
      ∀ q, q ≠ r → (s.regWrite (.word r) v).regs.get q = s.regs.get q) ∧
    (∀ p ∈ [(ByteReg.al, WordReg.ax), (.cl, .cx), (.dl, .dx), (.bl, .bx)],
      (s.regRead (.byte p.1)).toNat = (s.regs.get p.2).toNat % 256 ∧
      ((s.regWrite (.byte p.1) v).regs.get p.2).toNat = (s.regs.get p.2).toNat / 256 * 256 + v.toNat % 256 ∧
      ∀ q, q ≠ p.2 → (s.regWrite (.byte p.1) v).regs.get q = s.regs.get q) ∧
    (∀ p ∈ [(ByteReg.ah, WordReg.ax), (.ch, .cx), (.dh, .dx), (.bh, .bx)],
      (s.regRead (.byte p.1)).toNat = (s.regs.get p.2).toNat / 256 ∧
      ((s.regWrite (.byte p.1) v).regs.get p.2).toNat = v.toNat % 256 * 256 + (s.regs.get p.2).toNat % 256 ∧
      ∀ q, q ≠ p.2 → (s.regWrite (.byte p.1) v).regs.get q = s.regs.get q) ∧
    (∀ r : Reg, (s.regWrite r v).pc = s.pc ∧ (s.regWrite r v).flags = s.flags ∧ (s.regWrite r v).mem = s.mem ∧
      (s.regWrite r v).status = s.status ∧ (s.regWrite r v).image = s.image)

/-- R26, the aliasing invariant, for all four pairs. -/
def Obligations.ByteHalvesAliasTheirParent : Prop :=
  ∀ (s : State) (v : Word),
    ∀ p ∈ [(ByteReg.al, ByteReg.ah, WordReg.ax), (.cl, .ch, .cx), (.dl, .dh, .dx), (.bl, .bh, .bx)],
      let low := Reg.byte p.1
      let high := Reg.byte p.2.1
      let whole := Reg.word p.2.2
      ((s.regWrite low v).regRead high = s.regRead high ∧
        ((s.regWrite low v).regRead whole).toNat = (s.regRead high).toNat * 256 + v.toNat % 256) ∧
      ((s.regWrite high v).regRead low = s.regRead low ∧
        ((s.regWrite high v).regRead whole).toNat = v.toNat % 256 * 256 + (s.regRead low).toNat) ∧
      (((s.regWrite whole v).regRead low).toNat = v.toNat % 256 ∧
        ((s.regWrite whole v).regRead high).toNat = v.toNat / 256)

/-! ## Memory and the effective address -/

/-- A value stored is what a load of the same width and offset then gives, every byte outside the access reads as
before, and the memory stays canonical (the model's representation, entry 4); under every parameter of R57 (R53, R54;
the byte order is decision D6, the offset 0xFFFF decision D8). -/
def Obligations.LoadAfterStore : Prop :=
  ∀ (c : Config) (m m' : Memory) (a : Word) (w : Width) (v : Word), m.wf → m.store c a w v = .ok m' →
    m'.wf ∧ m'.load c a w = .ok (truncate w v) ∧
    ∀ k, k ≠ a.toNat → (w = .word → secondByte c a ≠ .ok k) → m'.read k = m.read k

/-- A word in data memory is little-endian and mixed-width accesses see it (R55, decision D6); no offset needs alignment
(R56, decision D7). -/
def Obligations.DataWordsAreLittleEndian : Prop :=
  ∀ (c : Config) (m : Memory) (a : Word) (v : Word), m.wf → a ≠ 0xFFFF →
    ∃ m', m.store c a .word v = .ok m' ∧
      m'.load c a .byte = .ok (zext8 (loByte v)) ∧ m'.load c (a + 1) .byte = .ok (zext8 (hiByte v))

/-- A word access at offset 0xFFFF under the three values of `WORD_AT_FFFF` (R57, decision D8): `fault` raises
OutOfBounds, `wrap` uses offset 0 and `spill` uses 0x10000 for the second byte. -/
def Obligations.WordAccessAtTheLastOffset : Prop :=
  ∀ (c : Config) (m : Memory) (v : Word), m.wf →
    (c.wordAtFFFF = .fault →
      m.load c 0xFFFF .word = .error (.outOfBounds 0xFFFF) ∧ m.store c 0xFFFF .word v = .error (.outOfBounds 0xFFFF)) ∧
    (c.wordAtFFFF = .wrap →
      m.load c 0xFFFF .word = .ok (joinBytes (m.read 0) (m.read 0xFFFF)) ∧
      ∃ m', m.store c 0xFFFF .word v = .ok m' ∧ m'.read 0xFFFF = loByte v ∧ m'.read 0 = hiByte v) ∧
    (c.wordAtFFFF = .spill →
      m.load c 0xFFFF .word = .ok (joinBytes (m.read 0x10000) (m.read 0xFFFF)) ∧
      ∃ m', m.store c 0xFFFF .word v = .ok m' ∧ m'.read 0xFFFF = loByte v ∧ m'.read 0x10000 = hiByte v)

/-- The canonical form is canonical: two canonical memories that read alike everywhere are equal (the model's own
representation of mem, entry 4). -/
def Obligations.CanonicalMemoriesThatReadAlikeAreEqual : Prop :=
  ∀ m m' : Memory, m.wf → m'.wf → (∀ a, m.read a = m'.read a) → m = m'

/-- R61: the effective address is the sum of the mode's base registers and the signed displacement, mod 2^16; DIRECT is
its literal. The sum is taken on integers. -/
def Obligations.EffectiveAddressIsTheWrappedSum : Prop :=
  ∀ (s : State) (d : Disp),
    ((s.ea (.based .bxSi d)).toNat : Int) = (s.regs.bx.toNat + s.regs.si.toNat + signedDisp d) % 65536 ∧
    ((s.ea (.based .bxDi d)).toNat : Int) = (s.regs.bx.toNat + s.regs.di.toNat + signedDisp d) % 65536 ∧
    ((s.ea (.based .bpSi d)).toNat : Int) = (s.regs.bp.toNat + s.regs.si.toNat + signedDisp d) % 65536 ∧
    ((s.ea (.based .bpDi d)).toNat : Int) = (s.regs.bp.toNat + s.regs.di.toNat + signedDisp d) % 65536 ∧
    ((s.ea (.based .si d)).toNat : Int) = (s.regs.si.toNat + signedDisp d) % 65536 ∧
    ((s.ea (.based .di d)).toNat : Int) = (s.regs.di.toNat + signedDisp d) % 65536 ∧
    ((s.ea (.based .bp d)).toNat : Int) = (s.regs.bp.toNat + signedDisp d) % 65536 ∧
    ((s.ea (.based .bx d)).toNat : Int) = (s.regs.bx.toNat + signedDisp d) % 65536 ∧
    ∀ a, s.ea (.direct a) = a

/-! ## The ALU and the flags -/

/-- R130: the ALU's result is the sum or difference (destination minus source) on unbounded integers mod 2^N. -/
def Obligations.AluIsExactArithmeticModuloTheWidth : Prop :=
  ∀ (op : ArithOp) (a b : Word) (w : Width), (alu op a b w).toNat = exactResult op a b w

/-- R131: ZF is written to whether the result is zero and SF to its top bit at the width; every other bit of flags is
unchanged, both are never 1 together, and nothing but flags changes. That the fourteen other bits stay 0 is R33's, marked
there as an inference; the mask 0xFF3F fixes ZF and SF at bits 6 and 7, which is decision D4 (entry 12). -/
def Obligations.FlagUpdateFollowsTheTruncatedResult : Prop :=
  ∀ (s : State) (res : Word) (w : Width), res.toNat < 2 ^ widthBits w →
    FlagsOf w res.toNat s (s.setFlags res w) ∧
    (s.flags &&& 0xFF3F = 0 → (s.setFlags res w).flags &&& 0xFF3F = 0) ∧
    ¬((s.setFlags res w).zf ∧ (s.setFlags res w).sf) ∧
    (s.setFlags res w).regs = s.regs ∧ (s.setFlags res w).pc = s.pc ∧ (s.setFlags res w).mem = s.mem ∧
    (s.setFlags res w).status = s.status ∧ (s.setFlags res w).image = s.image

/-! ## MOV -/

/-- MOV with a register destination and a register or immediate source completes from every state: the destination
receives the source's value, nothing else changes (`movRmReg`, `movRegRm`, `movRmImm` on a register, `movRegImm`). -/
def Obligations.MovToRegisterCompletes : Prop :=
  ∀ (s : State) (d r : Reg) (i : Imm),
    (d.width = r.width →
      (∃ t, exec (.movRmReg (.reg d) r) s = .next t ∧ WroteReg d (s.regRead r) s t) ∧
      (∃ t, exec (.movRegRm d (.reg r)) s = .next t ∧ WroteReg d (s.regRead r) s t)) ∧
    (d.width = i.width →
      (∃ t, exec (.movRmImm (.reg d) i) s = .next t ∧ WroteReg d (immValue i) s t) ∧
      (∃ t, exec (.movRegImm d i) s = .next t ∧ WroteReg d (immValue i) s t))

/-- MOV from memory completes wherever the access is not a word at offset 0xFFFF: the destination receives the
little-endian value at the effective address computed from the old registers; memory and flags do not change (`movRegRm`
on memory, `movAccMem`). The byte order is decision D6. -/
def Obligations.MovLoadCompletes : Prop :=
  ∀ (s : State),
    (∀ (d : Reg) (m : MemOperand), d.width = m.width → InRange m.width (s.ea m.ref) →
      ∃ t, exec (.movRegRm d (.mem m)) s = .next t ∧ WroteReg d (s.bytesAt m.width (s.ea m.ref)) s t) ∧
    (∀ (w : Width) (a : Word), InRange w a →
      ∃ t, exec (.movAccMem w a) s = .next t ∧ WroteReg (accumulator w) (s.bytesAt w a) s t)

/-- MOV to memory completes wherever the access is not a word at offset 0xFFFF: the value stands at the effective
address, low byte first, every other byte of memory reads as before, no register and no flag changes (`movRmReg` and
`movRmImm` on memory, `movMemAcc`). The byte order is decision D6; that memory is canonical (entry 4) is an invariant
of the machine (`StepKeepsTheInvariant`). `movMemAcc` is a form of decision D10. -/
def Obligations.MovStoreCompletes : Prop :=
  ∀ (s : State), s.mem.wf →
    (∀ (m : MemOperand) (r : Reg), m.width = r.width → InRange m.width (s.ea m.ref) →
      ∃ t, exec (.movRmReg (.mem m) r) s = .next t ∧ Stored m.width (s.ea m.ref) (s.regRead r) s t) ∧
    (∀ (m : MemOperand) (i : Imm), m.width = i.width → InRange m.width (s.ea m.ref) →
      ∃ t, exec (.movRmImm (.mem m) i) s = .next t ∧ Stored m.width (s.ea m.ref) (immValue i) s t) ∧
    (∀ (w : Width) (a : Word), InRange w a →
      ∃ t, exec (.movMemAcc a w) s = .next t ∧ Stored w a (s.regRead (accumulator w)) s t)

/-- A MOV of a word at offset 0xFFFF raises OutOfBounds(0xFFFF): the status records it and nothing else changes (R120,
R57, R193; the fault is decision D8, the state left is D17; `movMemAcc` is a form of D10). -/
def Obligations.MovWordAtLastOffsetRaisesOutOfBounds : Prop :=
  ∀ (s : State),
    (∀ (m : MemOperand) (r : Reg) (i : Imm), m.width = .word → r.width = .word → i.width = .word →
      s.ea m.ref = 0xFFFF →
      exec (.movRegRm r (.mem m)) s = .next { s with status := .faulted (.outOfBounds 0xFFFF) } ∧
      exec (.movRmReg (.mem m) r) s = .next { s with status := .faulted (.outOfBounds 0xFFFF) } ∧
      exec (.movRmImm (.mem m) i) s = .next { s with status := .faulted (.outOfBounds 0xFFFF) }) ∧
    exec (.movAccMem .word 0xFFFF) s = .next { s with status := .faulted (.outOfBounds 0xFFFF) } ∧
    exec (.movMemAcc 0xFFFF .word) s = .next { s with status := .faulted (.outOfBounds 0xFFFF) }

/-- A hand-built MOV whose operand kinds are not one of the five pairs, or whose operands differ in width, or lacks an
operand, is UnsupportedOperandCombination, under all parameters (R127; for the operand kinds also
93_implementation_defined.md U7). -/
def Obligations.HandBuiltInvalidMovPairsRaise : Prop :=
  ∀ (c : Config) (s : State) (n : Nat) (dst src : Option Operand),
    ¬(movKindsValid (dst.map kindOf) (src.map kindOf) = true ∧ dst.bind opWidth = src.bind opWidth) →
    execDecoded c ⟨.mov, n, dst, src⟩ s =
      .error (.unsupportedOperandCombination .mov (dst.map kindOf) (src.map kindOf))

/-! ## ADD, SUB, CMP -/

/-- ADD and SUB with a register destination and a register or immediate source complete from every state: the
destination receives the sum or difference mod 2^N, ZF and SF those of the result, nothing else changes (`addRmReg`,
`addRegRm`, `addRmImm`, `addAccImm` and the four SUB forms). The value of a one-byte group immediate is decision D9;
that overflow is neither recorded nor an abort is decision D25. `addAccImm` and `subAccImm` are forms of decision D10. -/
def Obligations.AddSubOnRegistersComplete : Prop :=
  ∀ (s : State) (d r : Reg) (g : GroupImm) (i : Imm),
    (∃ t, exec (.addRmReg (.reg d) r) s = .next t ∧ Computed .add d (s.regRead r) s t) ∧
    (∃ t, exec (.addRegRm d (.reg r)) s = .next t ∧ Computed .add d (s.regRead r) s t) ∧
    (∃ t, exec (.addRmImm (.reg d) g) s = .next t ∧ Computed .add d (immValue (g.toImm config)) s t) ∧
    (∃ t, exec (.addAccImm i) s = .next t ∧ Computed .add (accumulator i.width) (immValue i) s t) ∧
    (∃ t, exec (.subRmReg (.reg d) r) s = .next t ∧ Computed .sub d (s.regRead r) s t) ∧
    (∃ t, exec (.subRegRm d (.reg r)) s = .next t ∧ Computed .sub d (s.regRead r) s t) ∧
    (∃ t, exec (.subRmImm (.reg d) g) s = .next t ∧ Computed .sub d (immValue (g.toImm config)) s t) ∧
    (∃ t, exec (.subAccImm i) s = .next t ∧ Computed .sub (accumulator i.width) (immValue i) s t)

/-- CMP with a register first operand and a register or immediate second completes from every state: ZF and SF are
those of the difference, no register and no byte of memory changes (`cmpRmReg`, `cmpRegRm`, `cmpRmImm`, `cmpAccImm`).
The value of a one-byte group immediate is decision D9. `cmpAccImm` is a form of decision D10. -/
def Obligations.CmpOnRegistersCompletes : Prop :=
  ∀ (s : State) (d r : Reg) (g : GroupImm) (i : Imm),
    (∃ t, exec (.cmpRmReg (.reg d) r) s = .next t ∧ Compared d (s.regRead r) s t) ∧
    (∃ t, exec (.cmpRegRm d (.reg r)) s = .next t ∧ Compared d (s.regRead r) s t) ∧
    (∃ t, exec (.cmpRmImm (.reg d) g) s = .next t ∧ Compared d (immValue (g.toImm config)) s t) ∧
    (∃ t, exec (.cmpAccImm i) s = .next t ∧ Compared (accumulator i.width) (immValue i) s t)

/-- The admission table of R133, with the parameter ARITH_MEM_SOURCE left free (decision D12): register with register or
immediate executes (ADD and SUB compute, CMP compares); register with memory is UnsupportedOperandCombination, or under
`read` executes with the value loaded as its source; a memory destination is UnsupportedOperandCombination. -/
def Obligations.ArithAdmissionTable : Prop :=
  ∀ (c : Config) (op : ArithOp) (n : Nat) (s : State) (d r : Reg) (m : MemOperand) (i : Imm),
    let run := fun (dst src : Operand) => execDecoded c ⟨arithTag op, n, some dst, some src⟩ s
    let effect := fun (v : Word) (t : State) => match op with
      | .add => Computed .add d v s t
      | .sub => Computed .sub d v s t
      | .cmp => Compared d v s t
    (∃ t, run (.rm (.reg d)) (.rm (.reg r)) = .ok t ∧ effect (s.regRead r) t) ∧
    (∃ t, run (.rm (.reg d)) (.imm i) = .ok t ∧ effect (immValue i) t) ∧
    (c.arithMemSource = .fault → run (.rm (.reg d)) (.rm (.mem m)) =
      .error (.unsupportedOperandCombination (arithTag op) (some .register) (some .memory))) ∧
    (c.arithMemSource = .read →
      (∀ f, s.mem.load c (s.ea m.ref) m.width = .error f → run (.rm (.reg d)) (.rm (.mem m)) = .error f) ∧
      ∀ v, s.mem.load c (s.ea m.ref) m.width = .ok v →
        ∃ t, run (.rm (.reg d)) (.rm (.mem m)) = .ok t ∧ effect v t) ∧
    run (.rm (.mem m)) (.rm (.reg r)) =
      .error (.unsupportedOperandCombination (arithTag op) (some .memory) (some .register)) ∧
    run (.rm (.mem m)) (.imm i) =
      .error (.unsupportedOperandCombination (arithTag op) (some .memory) (some .immediate))

/-- On this machine ADD, SUB and CMP with a memory operand raise UnsupportedOperandCombination with the kinds of the two
operands, from every state, and nothing else changes (R133, R192; the memory source is
decision D12, the state left is D17). -/
def Obligations.ArithOnMemoryRaises : Prop :=
  ∀ (s : State) (m : MemOperand) (r : Reg) (g : GroupImm),
    let raised := fun (op : OpTag) (dst src : OperandKind) =>
      Host.Outcome.next (σ := State) (φ := Fault) (ρ := Refusal)
        { s with status := .faulted (.unsupportedOperandCombination op (some dst) (some src)) }
    exec (.addRmReg (.mem m) r) s = raised .add .memory .register ∧
    exec (.addRegRm r (.mem m)) s = raised .add .register .memory ∧
    exec (.addRmImm (.mem m) g) s = raised .add .memory .immediate ∧
    exec (.subRmReg (.mem m) r) s = raised .sub .memory .register ∧
    exec (.subRegRm r (.mem m)) s = raised .sub .register .memory ∧
    exec (.subRmImm (.mem m) g) s = raised .sub .memory .immediate ∧
    exec (.cmpRmReg (.mem m) r) s = raised .cmp .memory .register ∧
    exec (.cmpRegRm r (.mem m)) s = raised .cmp .register .memory ∧
    exec (.cmpRmImm (.mem m) g) s = raised .cmp .memory .immediate

/-- "executing SUB where destination equals source must set the zero flag and clear the sign flag" (R139's corner case),
for all 16 register names and both encodings; the register becomes 0. -/
def Obligations.SubOfARegisterFromItselfIsZero : Prop :=
  ∀ (s : State) (r : Reg), ∀ i ∈ [Instr.subRmReg (.reg r) r, .subRegRm r (.reg r)],
    ∃ t, exec i s = .next t ∧ t.regRead r = 0 ∧ t.zf = true ∧ t.sf = false

/-- CMP sets ZF exactly when its operands are equal (R143's corner case), for operands of one width, and clears SF
then. -/
def Obligations.CmpSetsZeroFlagExactlyOnEqual : Prop :=
  ∀ (s : State) (d r : Reg), d.width = r.width →
    ∃ t, exec (.cmpRmReg (.reg d) r) s = .next t ∧ exec (.cmpRegRm d (.reg r)) s = .next t ∧
      (t.zf = true ↔ s.regRead d = s.regRead r) ∧ (s.regRead d = s.regRead r → t.sf = false)

/-! ## Jumps -/

/-- JNE completes from every state: with ZF clear pc becomes the advanced pc plus the signed displacement, mod 2^16
(decision D5), with ZF set pc stays; nothing else changes (R162). -/
def Obligations.JneJumpsExactlyWhenZeroFlagClear : Prop :=
  ∀ (s : State) (rel : Byte), ∃ t, exec (.jne rel) s = .next t ∧
    (s.zf = false → (t.pc.toNat : Int) = (s.pc.toNat + rel.toInt) % 65536) ∧
    (s.zf = true → t.pc = s.pc) ∧
    t.regs = s.regs ∧ t.flags = s.flags ∧ t.mem = s.mem ∧ t.status = s.status ∧ t.image = s.image

/-- The nineteen decode-only jumps raise UnsupportedOperandCombination with their own operation tag from every state,
and change nothing else: not CX, not pc beyond the advance, no flag (R163, decision D15; the state left is D17, the
`rel8` operand D23, the recorded operands entry 16). -/
def Obligations.DecodeOnlyJumpsRaise : Prop :=
  ∀ (s : State) (rel : Byte),
    let raised := fun (op : OpTag) =>
      Host.Outcome.next (σ := State) (φ := Fault) (ρ := Refusal)
        { s with status := .faulted (.unsupportedOperandCombination op (some .rel8) none) }
    exec (.jo rel) s = raised .jo ∧ exec (.jno rel) s = raised .jno ∧ exec (.jb rel) s = raised .jb ∧
    exec (.jnb rel) s = raised .jnb ∧ exec (.je rel) s = raised .je ∧ exec (.jbe rel) s = raised .jbe ∧
    exec (.ja rel) s = raised .ja ∧ exec (.js rel) s = raised .js ∧ exec (.jns rel) s = raised .jns ∧
    exec (.jp rel) s = raised .jp ∧ exec (.jnp rel) s = raised .jnp ∧ exec (.jl rel) s = raised .jl ∧
    exec (.jge rel) s = raised .jge ∧ exec (.jle rel) s = raised .jle ∧ exec (.jg rel) s = raised .jg ∧
    exec (.loopnz rel) s = raised .loopnz ∧ exec (.loopz rel) s = raised .loopz ∧
    exec (.loop rel) s = raised .loop ∧ exec (.jcxz rel) s = raised .jcxz

/-! ## Whole-machine rules over all instructions -/

/-- R34. Writers: only ADD, SUB and CMP change flags, and where they do not fault ZF and SF after them do not depend on
the flags before. Readers: an instruction other than JNE runs alike (registers, pc, memory, status) whatever the flags
word holds, and JNE runs alike whatever every bit but ZF holds; so nothing reads SF, and nothing moves the flags word to a
register or to memory. The advance of pc leaves them, and the host reads them at the end of a run. -/
def Obligations.FlagsAreWrittenByArithAndReadByJneOnly : Prop :=
  (∀ (i : Instr) (s t : State), exec i s = .next t → t.flags ≠ s.flags → i.op ∈ [OpTag.add, .sub, .cmp]) ∧
  (∀ (i : Instr) (s : State) (f : Word), (i.op = .jne → f.getLsbD zfBit = s.zf) →
    ∃ t t', exec i s = .next t ∧ exec i { s with flags := f } = .next t' ∧
      t'.regs = t.regs ∧ t'.pc = t.pc ∧ t'.mem = t.mem ∧ t'.status = t.status ∧ t'.image = t.image ∧
      (i.op ∈ [OpTag.add, .sub, .cmp] → ¬t.IsFaulted → t'.zf = t.zf ∧ t'.sf = t.sf)) ∧
  (∀ (s : State) (n : Nat), (s.advance n).flags = s.flags) ∧
  (∀ s : State, s.status = .halted → ∃ o, s.output = some o ∧ o.flags = s.flags)

/-- Data memory is written only by a MOV whose destination is a memory operand (R58), and then only at that operand's
effective address and, for a word, the offset after it (R54, R65); for a word at offset 0xFFFF no byte changes (R57
under decision D8, entry 6). -/
def Obligations.OnlyMovStoresChangeMemory : Prop :=
  ∀ (i : Instr) (s t : State), s.mem.wf → exec i s = .next t →
    (storesTo i = none → t.mem = s.mem) ∧
    (∀ m, storesTo i = some m → ∀ k, k ≠ (s.ea m.ref).toNat →
      ¬(m.width = .word ∧ k = (s.ea m.ref).toNat + 1) → t.mem.read k = s.mem.read k) ∧
    (∀ m, storesTo i = some m → m.width = .word → s.ea m.ref = 0xFFFF → t.mem = s.mem)

/-- Data memory is read only by a MOV whose source is a memory operand (R58 under decision D12): every other instruction
does the same to registers, flags, pc and status whatever the memory holds. -/
def Obligations.OnlyMovLoadsReadMemory : Prop :=
  ∀ (i : Instr) (s : State) (m : Memory), loadsFrom i = none →
    ∃ t t', exec i s = .next t ∧ exec i { s with mem := m } = .next t' ∧
      t'.regs = t.regs ∧ t'.flags = t.flags ∧ t'.pc = t.pc ∧ t'.status = t.status

/-- An instruction changes pc (beyond the advance) only if it is JNE, and the program image never (R29, R70; the
image apart from data memory is decision D21). -/
def Obligations.OnlyJneWritesPc : Prop :=
  ∀ (i : Instr) (s t : State), exec i s = .next t →
    (i.op ≠ .jne → t.pc = s.pc) ∧ t.image = s.image

/-- The 38 arms of exec are the spec's execution by operation tag over the decoded record (R40 sub-step 5, R106), under the
decided parameters. -/
def Obligations.ExecIsExecutionOfTheDecodedRecord : Prop :=
  ∀ (i : Instr) (s : State), exec i s = s.settle (execDecoded Config.decided (i.decoded Config.decided) s)

/-! ## The step, faults and reset -/

/-- A step runs the decoded instruction: where a running machine's window at pc decodes to `i`, the step is `exec` of
`i` with pc advanced past it (R31, R40; the sum mod 2^16 is decision D5). -/
def Obligations.StepRunsTheDecodedInstruction : Prop :=
  ∀ (s : State) (i : Instr), s.status = .running → s.progLen ≤ maxProgLen → s.pc.toNat < s.progLen →
    decode (fetch s.image s.pc) = .ok i →
    step s = exec i { s with pc := s.pc + BitVec.ofNat 16 i.len }

/-- Where the window is an unsupported opcode the step records F1 with its first two bytes and pc, and changes nothing
else; pc is not advanced (R191, decision D17). -/
def Obligations.StepOnUnsupportedOpcodeLeavesPc : Prop :=
  ∀ (s : State) (b0 b1 : Byte), s.status = .running → s.progLen ≤ maxProgLen → s.pc.toNat < s.progLen →
    decode (fetch s.image s.pc) = .error (.unsupportedOpcode b0 b1) →
    step s = .next { s with status := .faulted (.unsupportedOpcode b0 b1 s.pc) }

/-- The end of a run: a step that begins with pc at or beyond `PROG_LEN` changes nothing but the status, which becomes
Halted; no other step of a running machine halts (R222, decision D1). -/
def Obligations.RunHaltsExactlyAtTheEndOfTheImage : Prop :=
  ∀ (s : State), s.status = .running → s.progLen ≤ maxProgLen →
    (s.progLen ≤ s.pc.toNat → step s = .next { s with status := .halted }) ∧
    (∀ t, step s = .next t → t.status = .halted → s.progLen ≤ s.pc.toNat)

/-- Halted and Faulted are absorbing: no number of steps leaves them or changes anything (R38, R196; decision D1). -/
def Obligations.HaltedAndFaultedAreAbsorbing : Prop :=
  ∀ (s : State), s.status = .halted ∨ s.IsFaulted → ∀ k, s.StepsTo k s

/-- An image longer than 65535 bytes is refused: not run by a step, not booted (R221, decision D2; where the test stands
is entry 18). A shorter one boots into the reset state with that image. -/
def Obligations.OverlongImagesAreRefused : Prop :=
  (∀ s : State, s.status = .running → maxProgLen < s.progLen → step s = .refused (.imageTooLong s.progLen)) ∧
  (∀ image : List Byte, maxProgLen < image.length → State.boot image = .refused (.imageTooLong image.length)) ∧
  (∀ image : List Byte, image.length ≤ maxProgLen → State.boot image = .next { State.reset with image := image })

/-- The window of a fetch: the image's byte at each of the six indices, zero at and beyond `PROG_LEN` (R71, decision
D24). -/
def Obligations.FetchIsZeroFilled : Prop :=
  ∀ (image : List Byte) (pc : Word) (k : Nat), k < windowLen →
    (fetch image pc).get k = if h : pc.toNat + k < image.length then image[pc.toNat + k] else 0

/-- The step is total on states whose image the machine runs: it always gives a next state (R40). The bound on the image's
length is decision D2. -/
def Obligations.StepIsTotal : Prop :=
  ∀ (s : State), s.progLen ≤ maxProgLen → ∃ t, step s = .next t

/-- Faults are precise (R195, decision D17): a step of a running machine that ends Faulted changes nothing but the
status and, for F2 and F3, pc, which then points past the decoded instruction; for F1 pc stays. The advance mod 2^16
is decision D5; that OutOfBounds names no offset but 0xFFFF is R193 with decision D8. -/
def Obligations.FaultsArePrecise : Prop :=
  ∀ (s t : State) (f : Fault), s.status = .running → step s = .next t → t.status = .faulted f →
    t.regs = s.regs ∧ t.flags = s.flags ∧ t.mem = s.mem ∧ t.image = s.image ∧
    ((∃ b0 b1, f = .unsupportedOpcode b0 b1 s.pc ∧ t.pc = s.pc) ∨
      (∃ i, decode (fetch s.image s.pc) = .ok i ∧ t.pc = s.pc + BitVec.ofNat 16 i.len ∧
        ((∃ op dst src, f = .unsupportedOperandCombination op dst src ∧ op = i.op) ∨ f = .outOfBounds 0xFFFF)))

/-- R44: after reset every byte of mem is 0x00. -/
def Obligations.ResetMemoryIsZero : Prop :=
  ∀ (s : State) (a : Nat), State.reset.mem.read a = 0x00 ∧ s.assertReset.mem.read a = 0x00

/-- Reset puts every register, pc and flags at 0 and the status at Running, and keeps the program image, which is an
argument of the machine (R220; decisions D1, D3; entry 1). -/
def Obligations.ResetPutsEverythingAtItsResetValue : Prop :=
  (∀ r : Reg, State.reset.regRead r = 0) ∧ State.reset.pc = 0 ∧ State.reset.flags = 0 ∧
  State.reset.status = .running ∧ State.reset.image = [] ∧
  ∀ s : State, s.assertReset = { State.reset with image := s.image }

/-- The reset state satisfies the invariant. That flags is 0 there is decision D3 (entry 3); the empty image, which
the machine runs, is the model's own (entry 1); memory zero is R44's. That memory is a canonical list is the model's
representation (entry 4). -/
def Obligations.ResetSatisfiesTheInvariant : Prop := State.reset.Inv

/-- The invariant every step keeps, from every state that has it: the data memory is canonical (the model's
representation, entry 4), it lists nothing beyond the offsets 0x0000 to 0xFFFF (R51, which marks it as its own
inference, under `WORD_AT_FFFF = fault`, decision D8, entry 6; under `spill` 0x10000 is written), the fourteen
unimplemented bits of flags are 0 (R33, marked there as an inference; which bits they are is decision D4, entry 12),
ZF and SF are not both 1 (R131), and the image is one the machine runs (R221, decision D2). -/
def Obligations.StepKeepsTheInvariant : Prop :=
  ∀ (s t : State), s.Inv → step s = .next t → t.Inv

/-- The step is the spec's parameterised step at the decided parameters of R9. -/
def Obligations.StepIsTheParameterisedStep : Prop :=
  ∀ s : State, step s = stepWith Config.decided s

/-- What `withFetchWord` is for (the model's own; entries 1, 17, 20): where a table-numbered word decodes, the next
step runs exactly that instruction, with pc advanced past it. The advance mod 2^16 is decision D5. -/
def Obligations.PlacedWordIsTheNextInstruction : Prop :=
  ∀ (s : State) (nbits w : Nat) (i : Instr), decodeTableWord nbits w = some i →
    step (s.withFetchWord nbits w) =
      exec i { s.withFetchWord nbits w with pc := (s.withFetchWord nbits w).pc + BitVec.ofNat 16 i.len }

/-- The output state is readable exactly when the status is Halted, and is the registers, flags, pc and memory (R7; that
it is not readable otherwise is decision D1 with R194). -/
def Obligations.OutputIsReadableExactlyWhenHalted : Prop :=
  ∀ s : State, (s.status = .halted → s.output = some ⟨s.regs, s.flags, s.pc, s.mem⟩) ∧
    (s.status ≠ .halted → s.output = none)

/-- The source's rendering examples (R114, R115; 95_test_vectors.md S1 to S4 and S10): the text of decoded instructions. -/
def Obligations.ListingOfTheSourceExamples : Prop :=
  (∀ c : Config,
    listing (Instr.decoded c (.movRmReg (.reg (.word .cx)) (.word .bx))) = "mov cx, bx" ∧
    listing (Instr.decoded c (.movAccMem .word 33)) = "mov ax, word [33]" ∧
    listing (Instr.decoded c (.movRegRm (.word .bx) (.mem ⟨.based .si (.d8 33), .word⟩))) = "mov bx, word [si +33]" ∧
    listing (Instr.decoded c (.movRegRm (.word .dx) (.mem ⟨.based .si (.d16 2000), .word⟩))) =
      "mov dx, word [si +2000]") ∧
  memRefText (.based .bp (.d8 0xFC)) = "bp -4"
end

