-- ==== Sys2Proof/Laws/State.lean ====
section
/-! SUPPORT. What each named update does to each field of State. -/

namespace Sys2Proof.Machine

variable (s : State) (r : Reg) (v : Word) (w : Width) (n : Nat) (f : Fault)

@[simp] theorem State.regWrite_regs : (s.regWrite r v).regs = s.regs.write r v := rfl
@[simp] theorem State.regWrite_pc : (s.regWrite r v).pc = s.pc := rfl
@[simp] theorem State.regWrite_flags : (s.regWrite r v).flags = s.flags := rfl
@[simp] theorem State.regWrite_mem : (s.regWrite r v).mem = s.mem := rfl
@[simp] theorem State.regWrite_status : (s.regWrite r v).status = s.status := rfl
@[simp] theorem State.regWrite_image : (s.regWrite r v).image = s.image := rfl

@[simp] theorem State.advance_regs : (s.advance n).regs = s.regs := rfl
@[simp] theorem State.advance_pc : (s.advance n).pc = s.pc + BitVec.ofNat 16 n := rfl
@[simp] theorem State.advance_flags : (s.advance n).flags = s.flags := rfl
@[simp] theorem State.advance_mem : (s.advance n).mem = s.mem := rfl
@[simp] theorem State.advance_status : (s.advance n).status = s.status := rfl
@[simp] theorem State.advance_image : (s.advance n).image = s.image := rfl

@[simp] theorem State.raise_regs : (s.raise f).regs = s.regs := rfl
@[simp] theorem State.raise_pc : (s.raise f).pc = s.pc := rfl
@[simp] theorem State.raise_flags : (s.raise f).flags = s.flags := rfl
@[simp] theorem State.raise_mem : (s.raise f).mem = s.mem := rfl
@[simp] theorem State.raise_status : (s.raise f).status = .faulted f := rfl
@[simp] theorem State.raise_image : (s.raise f).image = s.image := rfl

@[simp] theorem State.setFlags_regs : (s.setFlags v w).regs = s.regs := rfl
@[simp] theorem State.setFlags_pc : (s.setFlags v w).pc = s.pc := rfl
@[simp] theorem State.setFlags_mem : (s.setFlags v w).mem = s.mem := rfl
@[simp] theorem State.setFlags_status : (s.setFlags v w).status = s.status := rfl
@[simp] theorem State.setFlags_image : (s.setFlags v w).image = s.image := rfl

@[simp] theorem State.assertReset_regs : s.assertReset.regs = .reset := rfl
@[simp] theorem State.assertReset_pc : s.assertReset.pc = 0 := rfl
@[simp] theorem State.assertReset_flags : s.assertReset.flags = 0 := rfl
@[simp] theorem State.assertReset_mem : s.assertReset.mem = [] := rfl
@[simp] theorem State.assertReset_status : s.assertReset.status = .running := rfl
@[simp] theorem State.assertReset_image : s.assertReset.image = s.image := rfl

/-- Reading a register reads the register file alone. -/
theorem State.regRead_eq : s.regRead r = s.regs.read r := rfl

/-- How an execution settles: its own state, or the fault raised on the state before it. -/
@[simp] theorem State.settle_ok (t : State) : s.settle (.ok t) = .next t := rfl
@[simp] theorem State.settle_error : s.settle (.error f) = .next (s.raise f) := rfl

/-- Settling always gives a next state. -/
theorem State.settle_next (x : Result) : ∃ t, s.settle x = .next t := by
  cases x <;> exact ⟨_, rfl⟩

end Sys2Proof.Machine
end

