-- ==== Sys2Proof/Laws/Registers.lean ====
section
/-! SUPPORT. The laws of the register file (10_state.md R24 to R26): cells, names, halves. -/

namespace Sys2Proof.Machine

theorem RegFile.get_set (x : RegFile) (r q : WordReg) (v : Word) :
    (x.set r v).get q = if q = r then v else x.get q := by
  cases r <;> cases q <;> rfl

theorem loByte_toNat (v : Word) : (loByte v).toNat = v.toNat % 256 := by simp [loByte]

theorem hiByte_toNat (v : Word) : (hiByte v).toNat = v.toNat / 256 := by
  have := v.isLt
  simp [hiByte, Nat.shiftRight_eq_div_pow]; omega

theorem zext8_toNat (b : Byte) : (zext8 b).toNat = b.toNat := by
  have := b.isLt
  simp [zext8]; omega

theorem joinBytes_toNat (h l : Byte) : (joinBytes h l).toNat = h.toNat * 256 + l.toNat := by
  have append : (joinBytes h l).toNat = h.toNat <<< 8 ||| l.toNat := BitVec.toNat_append h l
  rw [append, ← Nat.shiftLeft_add_eq_or_of_lt l.isLt, Nat.shiftLeft_eq]

@[simp] theorem loByte_joinBytes (h l : Byte) : loByte (joinBytes h l) = l := by
  have := l.isLt
  exact BitVec.eq_of_toNat_eq (by rw [loByte_toNat, joinBytes_toNat]; omega)

@[simp] theorem hiByte_joinBytes (h l : Byte) : hiByte (joinBytes h l) = h := by
  have := l.isLt
  exact BitVec.eq_of_toNat_eq (by rw [hiByte_toNat, joinBytes_toNat]; omega)

@[simp] theorem joinBytes_hi_lo (v : Word) : joinBytes (hiByte v) (loByte v) = v :=
  BitVec.eq_of_toNat_eq (by rw [joinBytes_toNat, hiByte_toNat, loByte_toNat]; omega)

@[simp] theorem loByte_zext8 (b : Byte) : loByte (zext8 b) = b := by
  have := b.isLt
  exact BitVec.eq_of_toNat_eq (by rw [loByte_toNat, zext8_toNat]; omega)

/-- The value of a register fits its width. -/
theorem RegFile.truncate_read (x : RegFile) (r : Reg) : truncate r.width (x.read r) = x.read r := by
  cases r with
  | word r => rfl
  | byte r => simp [RegFile.read, Reg.width, truncate]

/-- Write then read of the same name gives the value truncated to the width of the name. -/
theorem RegFile.read_write_same (x : RegFile) (r : Reg) (v : Word) : (x.write r v).read r = truncate r.width v := by
  cases r with
  | word r => simp [RegFile.write, RegFile.read, RegFile.get_set, truncate, Reg.width]
  | byte r =>
    simp only [RegFile.write, RegFile.read, RegFile.get_set, truncate, Reg.width]
    cases byteIsHigh r <;> simp

/-- Write of one name leaves every name that shares no storage with it, the sibling half among them (R26). -/
theorem RegFile.read_write_other (x : RegFile) (d r : Reg) (v : Word) (h : overlaps d r = false) :
    (x.write d v).read r = x.read r := by
  cases d with
  | word d =>
    cases r with
    | word r =>
      have : r ≠ d := fun e => by simp [overlaps, e] at h
      simp [RegFile.write, RegFile.read, RegFile.get_set, this]
    | byte r =>
      have : byteParent r ≠ d := fun e => by simp [overlaps, e] at h
      simp [RegFile.write, RegFile.read, RegFile.get_set, this]
  | byte d =>
    cases r with
    | word r =>
      have : r ≠ byteParent d := fun e => by simp [overlaps, e] at h
      simp [RegFile.write, RegFile.read, RegFile.get_set, this]
    | byte r =>
      have hne : d ≠ r := fun e => by simp [overlaps, e] at h
      simp only [RegFile.write, RegFile.read, RegFile.get_set]
      by_cases hp : byteParent r = byteParent d
      · have hh : byteIsHigh r = !byteIsHigh d := by
          revert hne hp; cases d <;> cases r <;> simp [byteParent, byteIsHigh]
        rw [if_pos hp, hh, hp]
        cases byteIsHigh d <;> simp
      · simp [hp]

/-- Writing a register: the destination's value, every name sharing no storage, nothing else. -/
theorem State.regWrite_wrote (s : State) (d : Reg) (v : Word) : WroteReg d (truncate d.width v) s (s.regWrite d v) where
  value  := RegFile.read_write_same _ _ _
  others _ h := RegFile.read_write_other _ _ _ _ h
  pc     := rfl
  flags  := rfl
  mem    := rfl
  status := rfl
  image  := rfl

end Sys2Proof.Machine
end

