-- ==== Sys2Proof/Laws/Decode.lean ====
section
/-! SUPPORT. The laws of the decoder and the encoder: fields, tables, the operand of mod and rm, one lemma per pattern of
30_encoding.md R82, lengths. -/

namespace Sys2Proof

open Sys2Proof.Machine

/-! ## Fields and tables -/

@[simp] theorem modField_modrmByte (m : BitVec 2) (r n : BitVec 3) : modField (modrmByte m r n) = m := by
  decide +revert

@[simp] theorem regField_modrmByte (m : BitVec 2) (r n : BitVec 3) : regField (modrmByte m r n) = r := by
  decide +revert

@[simp] theorem rmField_modrmByte (m : BitVec 2) (r n : BitVec 3) : rmField (modrmByte m r n) = n := by
  decide +revert

/-- The modrm byte is its three fields (R90). -/
theorem modrmByte_fields (b : Byte) : modrmByte (modField b) (regField b) (rmField b) = b := by
  decide +revert

@[simp] theorem regOf_code (r : Reg) : regOf r.width r.code = r := by
  rcases r with r | r <;> cases r <;> rfl

@[simp] theorem regOf_width (w : Width) (f : BitVec 3) : (regOf w f).width = w := by cases w <;> rfl

@[simp] theorem code_regOf (w : Width) (f : BitVec 3) : (regOf w f).code = f := by
  cases w <;> decide +revert

@[simp] theorem baseOf_code (b : Base) : baseOf b.code = b := by cases b <;> rfl

@[simp] theorem code_baseOf (f : BitVec 3) : (baseOf f).code = f := by decide +revert

/-- rm = 110 is the BP base (R94). -/
theorem baseOf_eq_bp (f : BitVec 3) : baseOf f = .bp ↔ f = 6 := by decide +revert

/-! ## The operand that mod and rm select -/

theorem rmOperand_reg {win : Window} {w : Width} (h : modField win.b1 = 3) :
    rmOperand win w = .reg (regOf w (rmField win.b1)) := by
  simp [rmOperand, h]

theorem rmOperand_direct {win : Window} {w : Width} (h : modField win.b1 = 0) (h6 : rmField win.b1 = 6) :
    rmOperand win w = .mem ⟨.direct (win.get16 2), w⟩ := by
  simp [rmOperand, h, h6]

theorem rmOperand_none {win : Window} {w : Width} (h : modField win.b1 = 0) (h6 : rmField win.b1 ≠ 6) :
    rmOperand win w = .mem ⟨.based (baseOf (rmField win.b1)) .none, w⟩ := by
  simp only [rmOperand, h]
  exact if_neg h6

theorem rmOperand_d8 {win : Window} {w : Width} (h : modField win.b1 = 1) :
    rmOperand win w = .mem ⟨.based (baseOf (rmField win.b1)) (.d8 (win.get 2)), w⟩ := by
  simp [rmOperand, h]

theorem rmOperand_d16 {win : Window} {w : Width} (h : modField win.b1 = 2) :
    rmOperand win w = .mem ⟨.based (baseOf (rmField win.b1)) (.d16 (win.get16 2)), w⟩ := by
  simp [rmOperand, h]

/-- The four values of mod. -/
theorem modField_cases (b : Byte) : modField b = 0 ∨ modField b = 1 ∨ modField b = 2 ∨ modField b = 3 := by
  decide +revert

/-- The operand always has the instruction's width and an encoding. -/
theorem rmOperand_fits (win : Window) (w : Width) : (rmOperand win w).fits w = true := by
  rcases modField_cases win.b1 with h | h | h | h
  · by_cases h6 : rmField win.b1 = 6
    · rw [rmOperand_direct h h6]; cases w <;> rfl
    · rw [rmOperand_none h h6]
      have hb : baseOf (rmField win.b1) ≠ .bp := fun e => h6 ((baseOf_eq_bp _).1 e)
      cases hx : baseOf (rmField win.b1) <;> first | exact absurd hx hb | (cases w <;> rfl)
  · rw [rmOperand_d8 h]; cases baseOf (rmField win.b1) <;> cases w <;> rfl
  · rw [rmOperand_d16 h]; cases baseOf (rmField win.b1) <;> cases w <;> rfl
  · rw [rmOperand_reg h]; simp [RM.fits, RM.encodable, RM.width]

/-- The operand's bytes, read back. -/
theorem rmOperand_encode {w : Width} {rm : RM} (h : rm.fits w = true) (reg : BitVec 3) (b0 : Byte) (rest : List Byte) :
    rmOperand (Window.ofBytes (b0 :: (rm.encode reg ++ rest))) w = rm := by
  simp only [RM.fits, Bool.and_eq_true, beq_iff_eq] at h
  obtain ⟨henc, rfl⟩ := h
  rcases rm with r | ⟨⟨b, d⟩ | a, w⟩
  · rw [rmOperand_reg] <;> simp [RM.encode, Window.ofBytes, RM.width]
  · cases d with
    | none =>
      have hb : b.code ≠ 6 := by
        intro e
        have := (baseOf_eq_bp b.code).2 e
        rw [baseOf_code] at this
        subst this
        simp [RM.encodable, MemRef.encodable] at henc
      rw [rmOperand_none]
      · simp [RM.encode, Window.ofBytes, RM.width]
      · simp [RM.encode, Window.ofBytes]
      · simpa [RM.encode, Window.ofBytes] using hb
    | d8 d => rw [rmOperand_d8] <;> simp [RM.encode, Window.ofBytes, RM.width, Window.get, Window.bytes]
    | d16 d =>
      rw [rmOperand_d16] <;>
        simp [RM.encode, Window.ofBytes, RM.width, Window.get16, Window.get, Window.bytes, wordBytes]
  · rw [rmOperand_direct] <;>
      simp [RM.encode, Window.ofBytes, RM.width, Window.get16, Window.get, Window.bytes, wordBytes]

/-- The reg field of an operand's modrm byte. -/
theorem regField_encode (rm : RM) (reg : BitVec 3) (b0 : Byte) (rest : List Byte) :
    regField (Window.ofBytes (b0 :: (rm.encode reg ++ rest))).b1 = reg := by
  rcases rm with r | ⟨⟨b, d⟩ | a, w⟩
  · simp [RM.encode, Window.ofBytes]
  · cases d <;> simp [RM.encode, Window.ofBytes]
  · simp [RM.encode, Window.ofBytes]

/-- The middle field under the mask 0x38. -/
theorem and_0x38 (b : Byte) : b &&& 0x38 = 0#2 ++ regField b ++ 0#3 := by decide +revert

/-! ## Lengths -/

@[simp] theorem wordBytes_length (v : Word) : (wordBytes v).length = 2 := rfl

@[simp] theorem RM.encode_length (rm : RM) (reg : BitVec 3) : (rm.encode reg).length = 1 + rm.dispLen := by
  rcases rm with r | ⟨⟨b, d⟩ | a, w⟩
  · rfl
  · cases d <;> rfl
  · rfl

@[simp] theorem Imm.encode_length (i : Imm) : i.encode.length = i.len := by cases i <;> rfl

@[simp] theorem GroupImm.encode_length (i : GroupImm) : i.encode.length = i.len := by cases i <;> rfl

theorem RM.dispLen_le (rm : RM) : rm.dispLen ≤ 2 := by
  rcases rm with r | ⟨⟨b, d⟩ | a, w⟩
  · simp [RM.dispLen]
  · cases d <;> simp [RM.dispLen]
  · simp [RM.dispLen]

theorem Imm.len_bounds (i : Imm) : 1 ≤ i.len ∧ i.len ≤ 2 := by cases i <;> simp [Imm.len]

theorem GroupImm.len_bounds (i : GroupImm) : 1 ≤ i.len ∧ i.len ≤ 2 := by cases i <;> simp [GroupImm.len]

/-! ## The patterns of the first byte (R82) -/

theorem opcode7_width (bits : BitVec 7) (w : Width) : widthOf ((opcode7 bits w).getLsbD 0) = w := by
  cases w <;> decide +revert

theorem opcode7_direction (bits : BitVec 7) (w : Width) : (opcode7 bits w).getLsbD 1 = bits.getLsbD 0 := by
  cases w <;> decide +revert

/-- The first byte of pattern 3. -/
def riByte (w : Width) (f : BitVec 3) : Byte := 0b1011#4 ++ w.bit ++ f

/-- The first byte of pattern 9. -/
def groupByte (s : Bool) (w : Width) : Byte := 0b100000#6 ++ BitVec.ofBool s ++ w.bit

/-- The `s` bit of a group immediate, as a Bool. -/
def GroupImm.signed : GroupImm → Bool
  | .byte s _ => s
  | .word _   => false
  | .short _  => true

theorem groupByte_eq (g : GroupImm) : 0b100000#6 ++ g.sBit ++ g.width.bit = groupByte g.signed g.width := by
  cases g <;> rfl

theorem classify_riByte (w : Width) (f : BitVec 3) :
    classify (riByte w f) = some .movRegImm ∧ widthOf ((riByte w f).getLsbD 3) = w ∧ rmField (riByte w f) = f := by
  cases w <;> decide +revert

theorem classify_groupByte (s : Bool) (w : Width) :
    classify (groupByte s w) = some .arithRmImm ∧ widthOf ((groupByte s w).getLsbD 0) = w ∧
      (groupByte s w).getLsbD 1 = s := by
  cases w <;> decide +revert

theorem classify_jcc (cc : BitVec 4) :
    classify (0b0111#4 ++ cc) = some .jcc ∧ (0b0111#4 ++ cc : Byte).extractLsb' 0 4 = cc := by
  decide +revert

theorem classify_loop (cc : BitVec 2) :
    classify (0b111000#6 ++ cc) = some .loop ∧ (0b111000#6 ++ cc : Byte).extractLsb' 0 2 = cc := by
  decide +revert

section patterns

variable {c : Config} {win : Window} {w : Width}

theorem decodeWith_of_classify {p : Pattern} (h : classify win.b0 = some p) :
    decodeWith c win = decodePattern c win p := by
  simp only [decodeWith, h]

theorem decodeWith_movRmReg (h : win.b0 = opcode7 0b1000100 w) :
    decodeWith c win = .ok (.movRmReg (rmOperand win w) (regOf w (regField win.b1))) := by
  rw [decodeWith_of_classify (p := .movRmReg) (by rw [h]; cases w <;> decide)]
  simp only [decodePattern, h, opcode7_width, opcode7_direction]
  rfl

theorem decodeWith_movRegRm (h : win.b0 = opcode7 0b1000101 w) :
    decodeWith c win = .ok (.movRegRm (regOf w (regField win.b1)) (rmOperand win w)) := by
  rw [decodeWith_of_classify (p := .movRmReg) (by rw [h]; cases w <;> decide)]
  simp only [decodePattern, h, opcode7_width, opcode7_direction]
  rfl

theorem decodeWith_movRmImm (h : win.b0 = opcode7 0b1100011 w) (hr : regField win.b1 = 0) :
    decodeWith c win = .ok (.movRmImm (rmOperand win w) (immAt win (2 + (rmOperand win w).dispLen) w)) := by
  rw [decodeWith_of_classify (p := .movRmImm) (by rw [h]; cases w <;> decide)]
  simp only [decodePattern, h, opcode7_width]
  exact if_neg fun hn => hn.2 hr

theorem decodeWith_movRegImm {f : BitVec 3} (h : win.b0 = riByte w f) :
    decodeWith c win = .ok (.movRegImm (regOf w f) (immAt win 1 w)) := by
  obtain ⟨hp, hw, hf⟩ := classify_riByte w f
  rw [decodeWith_of_classify (p := .movRegImm) (by rw [h]; exact hp)]
  simp only [decodePattern, h, hw, hf]

theorem decodeWith_movAccMem (h : win.b0 = opcode7 0b1010000 w) :
    decodeWith c win = .ok (.movAccMem w (win.get16 1)) := by
  rw [decodeWith_of_classify (p := .movAccMem) (by rw [h]; cases w <;> decide)]
  simp only [decodePattern, h, opcode7_width]

theorem decodeWith_movMemAcc (h : win.b0 = opcode7 0b1010001 w) (hc : c.admitUnnamedForms = true) :
    decodeWith c win = .ok (.movMemAcc (win.get16 1) w) := by
  rw [decodeWith_of_classify (p := .movMemAcc) (by rw [h]; cases w <;> decide)]
  simp only [decodePattern, h, opcode7_width, hc]
  rfl

theorem decodeWith_addRmReg (h : win.b0 = opcode7 0b0000000 w) :
    decodeWith c win = .ok (.addRmReg (rmOperand win w) (regOf w (regField win.b1))) := by
  rw [decodeWith_of_classify (p := .arithRmReg .add) (by rw [h]; cases w <;> decide)]
  simp only [decodePattern, h, opcode7_width, opcode7_direction]
  rfl

theorem decodeWith_addRegRm (h : win.b0 = opcode7 0b0000001 w) :
    decodeWith c win = .ok (.addRegRm (regOf w (regField win.b1)) (rmOperand win w)) := by
  rw [decodeWith_of_classify (p := .arithRmReg .add) (by rw [h]; cases w <;> decide)]
  simp only [decodePattern, h, opcode7_width, opcode7_direction]
  rfl

theorem decodeWith_addAccImm (h : win.b0 = opcode7 0b0000010 w) (hc : c.admitUnnamedForms = true) :
    decodeWith c win = .ok (.addAccImm (immAt win 1 w)) := by
  rw [decodeWith_of_classify (p := .arithAccImm .add) (by rw [h]; cases w <;> decide)]
  simp only [decodePattern, h, opcode7_width, hc]
  rfl

theorem decodeWith_subRmReg (h : win.b0 = opcode7 0b0010100 w) :
    decodeWith c win = .ok (.subRmReg (rmOperand win w) (regOf w (regField win.b1))) := by
  rw [decodeWith_of_classify (p := .arithRmReg .sub) (by rw [h]; cases w <;> decide)]
  simp only [decodePattern, h, opcode7_width, opcode7_direction]
  rfl

theorem decodeWith_subRegRm (h : win.b0 = opcode7 0b0010101 w) :
    decodeWith c win = .ok (.subRegRm (regOf w (regField win.b1)) (rmOperand win w)) := by
  rw [decodeWith_of_classify (p := .arithRmReg .sub) (by rw [h]; cases w <;> decide)]
  simp only [decodePattern, h, opcode7_width, opcode7_direction]
  rfl

theorem decodeWith_subAccImm (h : win.b0 = opcode7 0b0010110 w) (hc : c.admitUnnamedForms = true) :
    decodeWith c win = .ok (.subAccImm (immAt win 1 w)) := by
  rw [decodeWith_of_classify (p := .arithAccImm .sub) (by rw [h]; cases w <;> decide)]
  simp only [decodePattern, h, opcode7_width, hc]
  rfl

theorem decodeWith_cmpRmReg (h : win.b0 = opcode7 0b0011100 w) :
    decodeWith c win = .ok (.cmpRmReg (rmOperand win w) (regOf w (regField win.b1))) := by
  rw [decodeWith_of_classify (p := .arithRmReg .cmp) (by rw [h]; cases w <;> decide)]
  simp only [decodePattern, h, opcode7_width, opcode7_direction]
  rfl

theorem decodeWith_cmpRegRm (h : win.b0 = opcode7 0b0011101 w) :
    decodeWith c win = .ok (.cmpRegRm (regOf w (regField win.b1)) (rmOperand win w)) := by
  rw [decodeWith_of_classify (p := .arithRmReg .cmp) (by rw [h]; cases w <;> decide)]
  simp only [decodePattern, h, opcode7_width, opcode7_direction]
  rfl

theorem decodeWith_cmpAccImm (h : win.b0 = opcode7 0b0011110 w) (hc : c.admitUnnamedForms = true) :
    decodeWith c win = .ok (.cmpAccImm (immAt win 1 w)) := by
  rw [decodeWith_of_classify (p := .arithAccImm .cmp) (by rw [h]; cases w <;> decide)]
  simp only [decodePattern, h, opcode7_width, hc]
  rfl

/-- Pattern 9: the sub-op selects the operation (R103). -/
theorem decodeWith_group {s : Bool} {op : ArithOp} (h : win.b0 = groupByte s w) (ho : arithOf (regField win.b1) = some op) :
    decodeWith c win =
      .ok (op.rmImm (rmOperand win w) (groupImmAt win (2 + (rmOperand win w).dispLen) w s)) := by
  obtain ⟨hp, hw, hs⟩ := classify_groupByte s w
  rw [decodeWith_of_classify (p := .arithRmImm) (by rw [h]; exact hp)]
  simp only [decodePattern, h, hw, hs, ho]

theorem decodeWith_jcc {cc : BitVec 4} (h : win.b0 = 0b0111#4 ++ cc) : decodeWith c win = .ok (jccOf cc win.b1) := by
  have hp := classify_jcc cc
  rw [decodeWith_of_classify (p := .jcc) (by rw [h]; exact hp.1)]
  simp only [decodePattern, h, hp.2]

theorem decodeWith_loop {cc : BitVec 2} (h : win.b0 = 0b111000#6 ++ cc) : decodeWith c win = .ok (loopOf cc win.b1) := by
  have hp := classify_loop cc
  rw [decodeWith_of_classify (p := .loop) (by rw [h]; exact hp.1)]
  simp only [decodePattern, h, hp.2]

end patterns

/-! ## What a window can decode to -/

/-- The windows that decode, by first byte, with the instruction each gives. -/
inductive DecodesTo (c : Config) (win : Window) : Instr → Prop where
  | movRmReg (w : Width) (h : win.b0 = opcode7 0b1000100 w) :
    DecodesTo c win (.movRmReg (rmOperand win w) (regOf w (regField win.b1)))
  | movRegRm (w : Width) (h : win.b0 = opcode7 0b1000101 w) :
    DecodesTo c win (.movRegRm (regOf w (regField win.b1)) (rmOperand win w))
  | addRmReg (w : Width) (h : win.b0 = opcode7 0b0000000 w) :
    DecodesTo c win (.addRmReg (rmOperand win w) (regOf w (regField win.b1)))
  | addRegRm (w : Width) (h : win.b0 = opcode7 0b0000001 w) :
    DecodesTo c win (.addRegRm (regOf w (regField win.b1)) (rmOperand win w))
  | subRmReg (w : Width) (h : win.b0 = opcode7 0b0010100 w) :
    DecodesTo c win (.subRmReg (rmOperand win w) (regOf w (regField win.b1)))
  | subRegRm (w : Width) (h : win.b0 = opcode7 0b0010101 w) :
    DecodesTo c win (.subRegRm (regOf w (regField win.b1)) (rmOperand win w))
  | cmpRmReg (w : Width) (h : win.b0 = opcode7 0b0011100 w) :
    DecodesTo c win (.cmpRmReg (rmOperand win w) (regOf w (regField win.b1)))
  | cmpRegRm (w : Width) (h : win.b0 = opcode7 0b0011101 w) :
    DecodesTo c win (.cmpRegRm (regOf w (regField win.b1)) (rmOperand win w))
  | movRmImm (w : Width) (h : win.b0 = opcode7 0b1100011 w)
      (hr : ¬(c.movImmRegField = .mustBe000 ∧ regField win.b1 ≠ 0)) :
    DecodesTo c win (.movRmImm (rmOperand win w) (immAt win (2 + (rmOperand win w).dispLen) w))
  | movRegImm (w : Width) (f : BitVec 3) (h : win.b0 = riByte w f) :
    DecodesTo c win (.movRegImm (regOf w f) (immAt win 1 w))
  | movAccMem (w : Width) (h : win.b0 = opcode7 0b1010000 w) : DecodesTo c win (.movAccMem w (win.get16 1))
  | movMemAcc (w : Width) (h : win.b0 = opcode7 0b1010001 w) (hc : c.admitUnnamedForms = true) :
    DecodesTo c win (.movMemAcc (win.get16 1) w)
  | group (s : Bool) (w : Width) (op : ArithOp) (h : win.b0 = groupByte s w)
      (ho : arithOf (regField win.b1) = some op) :
    DecodesTo c win (op.rmImm (rmOperand win w) (groupImmAt win (2 + (rmOperand win w).dispLen) w s))
  | addAccImm (w : Width) (h : win.b0 = opcode7 0b0000010 w) (hc : c.admitUnnamedForms = true) :
    DecodesTo c win (.addAccImm (immAt win 1 w))
  | subAccImm (w : Width) (h : win.b0 = opcode7 0b0010110 w) (hc : c.admitUnnamedForms = true) :
    DecodesTo c win (.subAccImm (immAt win 1 w))
  | cmpAccImm (w : Width) (h : win.b0 = opcode7 0b0011110 w) (hc : c.admitUnnamedForms = true) :
    DecodesTo c win (.cmpAccImm (immAt win 1 w))
  | jcc (cc : BitVec 4) (h : win.b0 = 0b0111#4 ++ cc) : DecodesTo c win (jccOf cc win.b1)
  | loop (cc : BitVec 2) (h : win.b0 = 0b111000#6 ++ cc) : DecodesTo c win (loopOf cc win.b1)

/-! The first bytes of each pattern. -/

theorem bytes_movRmReg (b0 : Byte) : classify b0 = some .movRmReg →
    ∃ w ∈ [Width.byte, .word], b0 = opcode7 0b1000100 w ∨ b0 = opcode7 0b1000101 w := by
  decide +revert

theorem bytes_movRmImm (b0 : Byte) : classify b0 = some .movRmImm → ∃ w ∈ [Width.byte, .word], b0 = opcode7 0b1100011 w := by
  decide +revert

theorem bytes_movRegImm (b0 : Byte) : classify b0 = some .movRegImm →
    ∃ w ∈ [Width.byte, .word], b0 = riByte w (rmField b0) := by
  decide +revert

theorem bytes_movAccMem (b0 : Byte) : classify b0 = some .movAccMem → ∃ w ∈ [Width.byte, .word], b0 = opcode7 0b1010000 w := by
  decide +revert

theorem bytes_movMemAcc (b0 : Byte) : classify b0 = some .movMemAcc → ∃ w ∈ [Width.byte, .word], b0 = opcode7 0b1010001 w := by
  decide +revert

theorem bytes_addRmReg (b0 : Byte) : classify b0 = some (.arithRmReg .add) →
    ∃ w ∈ [Width.byte, .word], b0 = opcode7 0b0000000 w ∨ b0 = opcode7 0b0000001 w := by
  decide +revert

theorem bytes_addAccImm (b0 : Byte) : classify b0 = some (.arithAccImm .add) → ∃ w ∈ [Width.byte, .word], b0 = opcode7 0b0000010 w := by
  decide +revert

theorem bytes_subRmReg (b0 : Byte) : classify b0 = some (.arithRmReg .sub) →
    ∃ w ∈ [Width.byte, .word], b0 = opcode7 0b0010100 w ∨ b0 = opcode7 0b0010101 w := by
  decide +revert

theorem bytes_subAccImm (b0 : Byte) : classify b0 = some (.arithAccImm .sub) → ∃ w ∈ [Width.byte, .word], b0 = opcode7 0b0010110 w := by
  decide +revert

theorem bytes_cmpRmReg (b0 : Byte) : classify b0 = some (.arithRmReg .cmp) →
    ∃ w ∈ [Width.byte, .word], b0 = opcode7 0b0011100 w ∨ b0 = opcode7 0b0011101 w := by
  decide +revert

theorem bytes_cmpAccImm (b0 : Byte) : classify b0 = some (.arithAccImm .cmp) → ∃ w ∈ [Width.byte, .word], b0 = opcode7 0b0011110 w := by
  decide +revert

theorem bytes_arithRmImm (b0 : Byte) : classify b0 = some .arithRmImm →
    ∃ s ∈ [false, true], ∃ w ∈ [Width.byte, .word], b0 = groupByte s w := by
  decide +revert

theorem bytes_jcc (b0 : Byte) : classify b0 = some .jcc → b0 = 0b0111#4 ++ b0.extractLsb' 0 4 := by
  decide +revert

theorem bytes_loop (b0 : Byte) : classify b0 = some .loop → b0 = 0b111000#6 ++ b0.extractLsb' 0 2 := by
  decide +revert

/-- The instruction of a window that decodes is one of these. -/
theorem decodeWith_inv {c : Config} {win : Window} {i : Instr} (h : decodeWith c win = .ok i) : DecodesTo c win i := by
  obtain ⟨p, hp⟩ : ∃ p, classify win.b0 = some p := by
    cases hc : classify win.b0 with
    | some p => exact ⟨p, rfl⟩
    | none => simp [decodeWith, hc] at h
  cases p with
  | movRmReg =>
    obtain ⟨w, _, hb | hb⟩ := bytes_movRmReg _ hp
    · rw [decodeWith_movRmReg hb] at h; cases h; exact .movRmReg w hb
    · rw [decodeWith_movRegRm hb] at h; cases h; exact .movRegRm w hb
  | movRmImm =>
    obtain ⟨w, _, hb⟩ := bytes_movRmImm _ hp
    rw [decodeWith_of_classify hp] at h
    simp only [decodePattern, hb, opcode7_width] at h
    split at h
    · cases h
    · next hr => cases h; exact .movRmImm w hb hr
  | movRegImm =>
    obtain ⟨w, _, hb⟩ := bytes_movRegImm _ hp
    rw [decodeWith_movRegImm hb] at h; cases h; exact .movRegImm w _ hb
  | movAccMem =>
    obtain ⟨w, _, hb⟩ := bytes_movAccMem _ hp
    rw [decodeWith_movAccMem hb] at h; cases h; exact .movAccMem w hb
  | movMemAcc =>
    obtain ⟨w, _, hb⟩ := bytes_movMemAcc _ hp
    cases hc : c.admitUnnamedForms with
    | true => rw [decodeWith_movMemAcc hb hc] at h; cases h; exact .movMemAcc w hb hc
    | false => simp [decodeWith_of_classify hp, decodePattern, hc] at h
  | arithRmReg op =>
    cases op
    · obtain ⟨w, _, hb | hb⟩ := bytes_addRmReg _ hp
      · rw [decodeWith_addRmReg hb] at h; cases h; exact .addRmReg w hb
      · rw [decodeWith_addRegRm hb] at h; cases h; exact .addRegRm w hb
    · obtain ⟨w, _, hb | hb⟩ := bytes_subRmReg _ hp
      · rw [decodeWith_subRmReg hb] at h; cases h; exact .subRmReg w hb
      · rw [decodeWith_subRegRm hb] at h; cases h; exact .subRegRm w hb
    · obtain ⟨w, _, hb | hb⟩ := bytes_cmpRmReg _ hp
      · rw [decodeWith_cmpRmReg hb] at h; cases h; exact .cmpRmReg w hb
      · rw [decodeWith_cmpRegRm hb] at h; cases h; exact .cmpRegRm w hb
  | arithRmImm =>
    obtain ⟨s, _, w, _, hb⟩ := bytes_arithRmImm _ hp
    cases ho : arithOf (regField win.b1) with
    | some op => rw [decodeWith_group hb ho] at h; cases h; exact .group s w op hb ho
    | none => simp [decodeWith_of_classify hp, decodePattern, ho] at h
  | arithAccImm op =>
    cases hc : c.admitUnnamedForms with
    | false => simp [decodeWith_of_classify hp, decodePattern, hc] at h
    | true =>
      cases op
      · obtain ⟨w, _, hb⟩ := bytes_addAccImm _ hp
        rw [decodeWith_addAccImm hb hc] at h; cases h; exact .addAccImm w hb hc
      · obtain ⟨w, _, hb⟩ := bytes_subAccImm _ hp
        rw [decodeWith_subAccImm hb hc] at h; cases h; exact .subAccImm w hb hc
      · obtain ⟨w, _, hb⟩ := bytes_cmpAccImm _ hp
        rw [decodeWith_cmpAccImm hb hc] at h; cases h; exact .cmpAccImm w hb hc
  | jcc => rw [decodeWith_jcc (bytes_jcc _ hp)] at h; cases h; exact .jcc _ (bytes_jcc _ hp)
  | loop => rw [decodeWith_loop (bytes_loop _ hp)] at h; cases h; exact .loop _ (bytes_loop _ hp)

/-- A window that does not decode is an unsupported opcode with its first two bytes. -/
theorem decodeWith_error {c : Config} {win : Window} {e : DecodeError} (h : decodeWith c win = .error e) :
    e = .unsupportedOpcode win.b0 win.b1 := by
  unfold decodeWith at h
  split at h
  · next p _ =>
    cases p <;> simp only [decodePattern] at h <;> (try split at h) <;> cases h <;> rfl
  · cases h; rfl

/-! ## Operand bytes, read back -/

theorem Window.get_ofBytes (l : List Byte) {k : Nat} (hk : k < windowLen) : (Window.ofBytes l).get k = l.getD k 0 := by
  simp only [windowLen] at hk
  interval_cases k <;> rfl

/-- An immediate whose bytes stand at `p`. -/
theorem immAt_encode {i : Imm} {w : Width} (h : w = i.width) (win : Window) (p : Nat)
    (hb : ∀ k, k < i.len → win.get (p + k) = i.encode.getD k 0) : immAt win p w = i := by
  subst h
  cases i with
  | byte v =>
    have h0 := hb 0 (by simp [Imm.len])
    simpa [immAt, Imm.width, Imm.encode] using h0
  | word v =>
    have h0 := hb 0 (by simp [Imm.len])
    have h1 := hb 1 (by simp [Imm.len])
    simp only [Imm.encode, wordBytes, List.getD_cons_zero, List.getD_cons_succ, Nat.add_zero] at h0 h1
    simp [immAt, Imm.width, Window.get16, h0, h1]

/-- A group immediate whose bytes stand at `p`. -/
theorem groupImmAt_encode {i : GroupImm} (win : Window) (p : Nat)
    (hb : ∀ k, k < i.len → win.get (p + k) = i.encode.getD k 0) : groupImmAt win p i.width i.signed = i := by
  cases i with
  | byte s v =>
    have h0 := hb 0 (by simp [GroupImm.len])
    simpa [groupImmAt, GroupImm.width, GroupImm.encode, GroupImm.signed] using h0
  | word v =>
    have h0 := hb 0 (by simp [GroupImm.len])
    have h1 := hb 1 (by simp [GroupImm.len])
    simp only [GroupImm.encode, wordBytes, List.getD_cons_zero, List.getD_cons_succ, Nat.add_zero] at h0 h1
    simp [groupImmAt, GroupImm.width, GroupImm.signed, Window.get16, h0, h1]
  | short v =>
    have h0 := hb 0 (by simp [GroupImm.len])
    simpa [groupImmAt, GroupImm.width, GroupImm.encode, GroupImm.signed] using h0

/-- The bytes that follow the operand of mod and rm. -/
theorem RM.getD_after (b0 : Byte) (rm : RM) (sub : BitVec 3) (bs rest : List Byte) {k : Nat} (hk : k < bs.length) :
    ((b0 :: rm.encode sub) ++ bs ++ rest).getD (2 + rm.dispLen + k) 0 = bs.getD k 0 := by
  have h : 2 + rm.dispLen + k = (b0 :: rm.encode sub).length + k := by simp; omega
  rw [h, List.append_assoc, List.getD_eq_getElem?_getD, List.getElem?_append_right (by omega),
    Nat.add_sub_cancel_left, List.getElem?_append_left hk, List.getD_eq_getElem?_getD]

/-! ## The rows of the opcode table -/

theorem hiByte_and (v v' : Word) : hiByte (v &&& v') = hiByte v &&& hiByte v' := by
  apply BitVec.eq_of_getLsbD_eq
  intro i hi
  simp [hiByte, hi]

theorem loByte_and (v v' : Word) : loByte (v &&& v') = loByte v &&& loByte v' := by
  apply BitVec.eq_of_getLsbD_eq
  intro i hi
  simp [loByte, hi]

/-- A row selects a window by its two bytes (R118). -/
theorem TableRow.selects_iff (row : TableRow) (win : Window) :
    row.Selects win ↔ win.b0 &&& hiByte row.mask = hiByte row.pattern ∧ win.b1 &&& loByte row.mask = loByte row.pattern := by
  have hv := joinBytes_hi_lo (joinBytes win.b0 win.b1 &&& row.mask)
  rw [hiByte_and, loByte_and, hiByte_joinBytes, loByte_joinBytes] at hv
  unfold TableRow.Selects
  constructor
  · intro h
    rw [← h, hiByte_and, loByte_and, hiByte_joinBytes, loByte_joinBytes]
    exact ⟨rfl, rfl⟩
  · rintro ⟨h1, h2⟩
    rw [← hv, h1, h2, joinBytes_hi_lo]

end Sys2Proof
end

