-- ==== Sys2Proof/Laws/Flags.lean ====
section
/-! SUPPORT. The laws of the flags word and the ALU (41_arith.md R130, R131). -/

namespace Sys2Proof.Machine

theorem getLsbD_withBit (v : Word) (k : Nat) (b : Bool) (i : Nat) :
    (withBit v k b).getLsbD i = if i = k ∧ k < 16 then b else v.getLsbD i := by
  unfold withBit
  by_cases hi : i < 16
  · cases b <;> by_cases h : i = k
    · subst h; simp [hi]
    · simp [hi, h]
    · subst h; simp [hi]
    · simp [hi, h]
  · have hk : ¬(i = k ∧ k < 16) := by omega
    rw [if_neg hk, BitVec.getLsbD_of_ge _ _ (by omega), BitVec.getLsbD_of_ge v _ (by omega)]

@[simp] theorem State.setFlags_zf (s : State) (res : Word) (w : Width) : (s.setFlags res w).zf = (res == 0) := by
  unfold State.zf State.setFlags
  rw [getLsbD_withBit, if_neg (by decide), getLsbD_withBit, if_pos (by decide)]

@[simp] theorem State.setFlags_sf (s : State) (res : Word) (w : Width) :
    (s.setFlags res w).sf = res.getLsbD (widthBits w - 1) := by
  unfold State.sf State.setFlags
  rw [getLsbD_withBit, if_pos (by decide)]

theorem State.setFlags_others (s : State) (res : Word) (w : Width) {k : Nat} (hz : k ≠ zfBit) (hs : k ≠ sfBit) :
    (s.setFlags res w).flags.getLsbD k = s.flags.getLsbD k := by
  simp [State.setFlags, getLsbD_withBit, hz, hs]

theorem truncate_toNat (w : Width) (v : Word) : (truncate w v).toNat = v.toNat % 2 ^ widthBits w := by
  have := v.isLt
  cases w with
  | byte => simp [truncate, zext8_toNat, loByte_toNat, widthBits]
  | word => simp [truncate, widthBits]; omega

/-- The ALU's result fits the width. -/
theorem truncate_alu (op : ArithOp) (a b : Word) (w : Width) : truncate w (alu op a b w) = alu op a b w := by
  cases op <;> cases w <;> simp [alu, truncate]

/-- The flags of a result that fits its width. -/
theorem State.setFlags_flagsOf (s s' : State) (res : Word) (w : Width) (h : s'.flags = s.flags) :
    FlagsOf w res.toNat s (s'.setFlags res w) where
  zf := by
    rw [State.setFlags_zf]
    by_cases hz : res = 0
    · simp [hz]
    · have : res.toNat ≠ 0 := fun h => hz (BitVec.eq_of_toNat_eq (by simpa using h))
      simp only [beq_eq_false_iff_ne.2 hz, this, decide_false]
  sf := by rw [State.setFlags_sf]; rfl
  others k hz hs := by rw [State.setFlags_others _ _ _ hz hs, h]

/-- The unimplemented bits stay zero (R33). -/
theorem State.setFlags_reserved (s : State) (res : Word) (w : Width) (h : s.flags &&& 0xFF3F = 0) :
    (s.setFlags res w).flags &&& 0xFF3F = 0 := by
  apply BitVec.eq_of_getLsbD_eq
  intro i hi
  have hb := congrArg (fun v : Word => v.getLsbD i) h
  by_cases hz : i = zfBit
  · subst hz; simp [zfBit]
  · by_cases hs : i = sfBit
    · subst hs; simp [sfBit]
    · simpa [State.setFlags_others _ _ _ hz hs] using hb

end Sys2Proof.Machine
end

