-- ==== Sys2Proof/Laws/Memory.lean ====
section
/-! SUPPORT. The laws of the data memory: read after write, and that every operation keeps the canonical form. -/

namespace Sys2Proof.Machine

@[simp] theorem Memory.read_nil (a : Nat) : Memory.read [] a = Memory.unlisted := rfl

@[simp] theorem Memory.read_entry (k : Nat) (b : Byte) (m : Memory) (a : Nat) :
    Memory.read ((k, b) :: m) a = if a = k then b else Memory.read m a := rfl

/-- An address no entry lists reads as the unlisted byte. -/
theorem Memory.read_of_not_listed {m : Memory} {a : Nat} (h : ∀ e ∈ m, e.1 ≠ a) : m.read a = Memory.unlisted := by
  induction m with
  | nil => rfl
  | cons e m ih =>
    obtain ⟨k, b⟩ := e
    have hk : a ≠ k := fun hak => h (k, b) (by simp) hak.symm
    simpa [hk] using ih fun e he => h e (by simp [he])

/-- The canonical form of a tail. -/
theorem Memory.wf.tail {k : Nat} {b : Byte} {m : Memory} (h : Memory.wf ((k, b) :: m)) : m.wf :=
  ⟨(List.pairwise_cons.1 h.1).2, fun e he => h.2 e (by simp [he])⟩

/-- Every address after the first entry is larger. -/
theorem Memory.wf.above {k : Nat} {b : Byte} {m : Memory} (h : Memory.wf ((k, b) :: m)) : ∀ e ∈ m, k < e.1 :=
  (List.pairwise_cons.1 h.1).1

theorem Memory.read_cons {a : Nat} {v : Byte} {m : Memory} (h : ∀ e ∈ m, a < e.1) (x : Nat) :
    (Memory.cons a v m).read x = if x = a then v else m.read x := by
  unfold Memory.cons
  split
  · next hv =>
    split
    · next hx => rw [hx, hv]; exact Memory.read_of_not_listed fun e he => (h e he).ne'
    · rfl
  · simp

theorem Memory.wf_cons {a : Nat} {v : Byte} {m : Memory} (hm : m.wf) (h : ∀ e ∈ m, a < e.1) (ha : a < memSize) :
    (Memory.cons a v m).wf := by
  unfold Memory.cons
  split
  · exact hm
  · next hv =>
    refine ⟨List.pairwise_cons.2 ⟨h, hm.1⟩, fun e he => ?_⟩
    rcases List.mem_cons.1 he with rfl | he
    · exact ⟨ha, hv⟩
    · exact hm.2 e he

/-- Read after write: the byte written at its address, every other address as before. -/
theorem Memory.read_write {m : Memory} (h : m.wf) (a : Nat) (v : Byte) (x : Nat) :
    (m.write a v).read x = if x = a then v else m.read x := by
  induction m with
  | nil => exact Memory.read_cons (by simp) x
  | cons e m ih =>
    obtain ⟨k, b⟩ := e
    have above := h.above
    unfold Memory.write
    split
    · next hak =>
      refine Memory.read_cons (fun e he => ?_) x
      rcases List.mem_cons.1 he with rfl | he
      · exact hak
      · exact hak.trans (above e he)
    · split
      · next hak =>
        subst hak
        rw [Memory.read_cons above]
        by_cases hx : x = a <;> simp [hx]
      · next hlt hak =>
        rw [Memory.read_entry, ih h.tail, Memory.read_entry]
        by_cases hxk : x = k
        · simp [hxk, Ne.symm hak]
        · simp [hxk]

/-- An entry of a written memory is the one written or one that stood there. -/
theorem Memory.mem_write {m : Memory} {a : Nat} {v : Byte} {e : Host.Cell} (h : e ∈ m.write a v) :
    e.1 = a ∨ e ∈ m := by
  have cons_case : ∀ m' : Memory, e ∈ Memory.cons a v m' → e.1 = a ∨ e ∈ m' := by
    intro m' hm'
    unfold Memory.cons at hm'
    split at hm'
    · exact .inr hm'
    · rcases List.mem_cons.1 hm' with rfl | he
      · exact .inl rfl
      · exact .inr he
  induction m with
  | nil => exact cons_case [] h
  | cons x m ih =>
    obtain ⟨k, b⟩ := x
    unfold Memory.write at h
    split at h
    · exact cons_case _ h
    · split at h
      · exact (cons_case _ h).imp id fun he => by simp [he]
      · rcases List.mem_cons.1 h with rfl | he
        · simp
        · exact (ih he).imp id fun he => by simp [he]

/-- A write keeps the canonical form. -/
theorem Memory.wf_write {m : Memory} (h : m.wf) {a : Nat} (v : Byte) (ha : a < memSize) : (m.write a v).wf := by
  induction m with
  | nil => exact Memory.wf_cons h (by simp) ha
  | cons e m ih =>
    obtain ⟨k, b⟩ := e
    have above := h.above
    unfold Memory.write
    split
    · next hak =>
      refine Memory.wf_cons h (fun e he => ?_) ha
      rcases List.mem_cons.1 he with rfl | he
      · exact hak
      · exact hak.trans (above e he)
    · split
      · next hak => subst hak; exact Memory.wf_cons h.tail above ha
      · next hlt hak =>
        have ht := ih h.tail
        refine ⟨List.pairwise_cons.2 ⟨fun e he => ?_, ht.1⟩, fun e he => ?_⟩
        · rcases Memory.mem_write he with rfl | he
          · show k < e.1
            omega
          · exact above e he
        · rcases List.mem_cons.1 he with rfl | he
          · exact h.2 _ (by simp)
          · exact ht.2 e he

/-- A write keeps the addresses below any bound the written one is below. -/
theorem Memory.below_write {m : Memory} {a n : Nat} {v : Byte} (h : ∀ e ∈ m, e.1 < n) (ha : a < n) :
    ∀ e ∈ m.write a v, e.1 < n := fun e he =>
  (Memory.mem_write he).elim (fun h' => h' ▸ ha) (h e)

/-- The second byte of a word access: at 0xFFFF what the parameter says, else the next offset. -/
theorem secondByte_of_ne {c : Config} {a : Word} (h : a ≠ 0xFFFF) : secondByte c a = .ok (a.toNat + 1) := by
  unfold secondByte; rw [if_neg h]

theorem secondByte_last (c : Config) : secondByte c 0xFFFF =
    (match c.wordAtFFFF with
     | .fault => .error (.outOfBounds 0xFFFF)
     | .wrap  => .ok 0
     | .spill => .ok 0x10000) := rfl

/-- The second byte is inside the memory and is not the first. -/
theorem secondByte_bounds {c : Config} {a : Word} {k : Nat} (h : secondByte c a = .ok k) :
    k < memSize ∧ k ≠ a.toNat := by
  have := a.isLt
  unfold secondByte at h
  split at h
  · next ha =>
    have ha' : a.toNat = 65535 := by rw [ha]; rfl
    split at h <;> cases h
    · simp [memSize, ha']
    · simp [memSize, ha']
  · cases h; exact ⟨by simp only [memSize]; omega, by omega⟩

/-- Only the decided parameter faults, and only at offset 0xFFFF. -/
theorem secondByte_error {c : Config} {a : Word} {f : Fault} (h : secondByte c a = .error f) :
    a = 0xFFFF ∧ c.wordAtFFFF = .fault ∧ f = .outOfBounds 0xFFFF := by
  unfold secondByte at h
  split at h
  · next ha => split at h <;> cases h; subst ha; exact ⟨rfl, ‹_›, rfl⟩
  · cases h

/-- What a store does when it answers a memory: the form stays canonical, the byte or bytes stand at their indices, every
other byte reads as before. -/
theorem Memory.store_spec {c : Config} {m m' : Memory} {a : Word} {w : Width} {v : Word} (hm : m.wf)
    (h : m.store c a w v = .ok m') :
    m'.wf ∧ m'.read a.toNat = loByte v ∧ (∀ k, w = .word → secondByte c a = .ok k → m'.read k = hiByte v) ∧
      ∀ x, x ≠ a.toNat → (w = .word → secondByte c a ≠ .ok x) → m'.read x = m.read x := by
  have ha : a.toNat < memSize := by have := a.isLt; simp [memSize]; omega
  have h1 := Memory.wf_write hm (loByte v) ha
  cases w with
  | byte =>
    simp only [Memory.store, Except.ok.injEq] at h
    subst h
    exact ⟨h1, by simp [Memory.read_write hm], by simp, fun x hx _ => by simp [Memory.read_write hm, hx]⟩
  | word =>
    simp only [Memory.store] at h
    split at h
    · cases h
    · next k hk =>
      cases h
      obtain ⟨hkm, hka⟩ := secondByte_bounds hk
      refine ⟨Memory.wf_write h1 _ hkm, ?_, ?_, ?_⟩
      · simp [Memory.read_write h1, Memory.read_write hm, Ne.symm hka]
      · intro k' _ hk'
        rw [hk] at hk'; cases hk'
        simp [Memory.read_write h1]
      · intro x hx hx'
        have hxk : x ≠ k := fun hxk => hx' rfl (hxk ▸ hk)
        simp [Memory.read_write h1, Memory.read_write hm, hx, hxk]

/-- A store in range answers a memory. -/
theorem Memory.store_of_inRange (c : Config) (m : Memory) {a : Word} {w : Width} (v : Word) (h : InRange w a) :
    ∃ m', m.store c a w v = .ok m' := by
  cases w with
  | byte => exact ⟨_, rfl⟩
  | word =>
    have ha : a ≠ 0xFFFF := fun ha => h ⟨rfl, ha⟩
    simp only [Memory.store, secondByte_of_ne ha]
    exact ⟨_, rfl⟩

/-- A store under the decided parameter keeps the memory within the reachable offsets. -/
theorem Memory.store_reachable {m m' : Memory} {a : Word} {w : Width} {v : Word} (hm : m.Reachable)
    (h : m.store config a w v = .ok m') : m'.Reachable := by
  refine ⟨(Memory.store_spec hm.1 h).1, ?_⟩
  have ha : a.toNat < 0x10000 := a.isLt
  cases w with
  | byte => cases h; exact Memory.below_write hm.2 ha
  | word =>
    simp only [Memory.store] at h
    split at h
    · cases h
    · next k hk =>
      cases h
      refine Memory.below_write (Memory.below_write hm.2 ha) ?_
      unfold secondByte at hk
      split at hk
      · cases hk
      · next hne =>
        cases hk
        have : a.toNat ≠ 65535 := fun h => hne (BitVec.eq_of_toNat_eq h)
        omega

end Sys2Proof.Machine
end

