-- ==== Sys2Proof/Laws/Exec.lean ====
section
/-! SUPPORT. What executing MOV, an ALU operation, a jump, any instruction, or one step can do: one lemma each. -/

namespace Sys2Proof.Machine

/-! ## Operands -/

@[simp] theorem State.operandRead_reg (c : Config) (s : State) (r : Reg) :
    s.operandRead c (.rm (.reg r)) = .ok (s.regRead r) := rfl
@[simp] theorem State.operandRead_imm (c : Config) (s : State) (i : Imm) :
    s.operandRead c (.imm i) = .ok (immValue i) := rfl
@[simp] theorem State.operandRead_mem (c : Config) (s : State) (m : MemOperand) :
    s.operandRead c (.rm (.mem m)) = s.mem.load c (s.ea m.ref) m.width := rfl
@[simp] theorem State.operandWrite_reg (c : Config) (s : State) (r : Reg) (v : Word) :
    s.operandWrite c (.reg r) v = .ok (s.regWrite r v) := rfl

/-- A load in range gives the little-endian value. -/
theorem State.load_of_inRange (c : Config) (s : State) {w : Width} {a : Word} (h : InRange w a) :
    s.mem.load c a w = .ok (s.bytesAt w a) := by
  cases w with
  | byte => rfl
  | word =>
    have ha : a ≠ 0xFFFF := fun ha => h ⟨rfl, ha⟩
    simp only [Memory.load, secondByte_of_ne ha, State.bytesAt]

/-- The value of a load fits its width. -/
theorem State.truncate_bytesAt (s : State) (w : Width) (a : Word) : truncate w (s.bytesAt w a) = s.bytesAt w a := by
  cases w <;> simp [truncate, State.bytesAt]

/-- The value of an immediate fits its width. -/
theorem truncate_immValue (i : Imm) : truncate i.width (immValue i) = immValue i := by
  cases i <;> simp [truncate, immValue, Imm.width]

theorem State.truncate_regRead (s : State) (r : Reg) : truncate r.width (s.regRead r) = s.regRead r :=
  RegFile.truncate_read _ _

/-- A load faults only on a word at offset 0xFFFF. -/
theorem Memory.load_error {c : Config} {m : Memory} {a : Word} {w : Width} {f : Fault} (h : m.load c a w = .error f) :
    f = .outOfBounds 0xFFFF := by
  cases w with
  | byte => cases h
  | word =>
    simp only [Memory.load] at h
    split at h
    · next hk => cases h; exact (secondByte_error hk).2.2
    · cases h

/-- A store faults only on a word at offset 0xFFFF. -/
theorem Memory.store_error {c : Config} {m : Memory} {a : Word} {w : Width} {v : Word} {f : Fault}
    (h : m.store c a w v = .error f) : f = .outOfBounds 0xFFFF := by
  cases w with
  | byte => cases h
  | word =>
    simp only [Memory.store] at h
    split at h
    · next hk => cases h; exact (secondByte_error hk).2.2
    · cases h

/-- A store in range to a canonical memory: the bytes at the offset, nothing else. -/
theorem State.operandWrite_stored {c : Config} {s : State} (hm : s.mem.wf) (m : MemOperand) (v : Word)
    (h : InRange m.width (s.ea m.ref)) :
    ∃ t, s.operandWrite c (.mem m) v = .ok t ∧ Stored m.width (s.ea m.ref) v s t := by
  obtain ⟨mem, hs⟩ := Memory.store_of_inRange c s.mem v h
  obtain ⟨_, lo, hi, others⟩ := Memory.store_spec hm hs
  have word_ne : m.width = .word → s.ea m.ref ≠ 0xFFFF := fun hw ha => h ⟨hw, ha⟩
  refine ⟨{ s with mem := mem }, by simp [State.operandWrite, hs], ?_⟩
  exact {
    low := lo
    high := fun hw => hi _ hw (secondByte_of_ne (word_ne hw))
    others := fun k hk hk' => others k hk fun hw => by
      rw [secondByte_of_ne (word_ne hw)]
      exact fun e => hk' ⟨hw, (Except.ok.inj e).symm⟩
    regs := rfl, pc := rfl, flags := rfl, status := rfl, image := rfl }

/-! ## MOV -/

/-- An answer of MOV: the destination register written, or the memory stored to. -/
theorem mov_ok {c : Config} {dst src : Operand} {s t : State} (h : mov c dst src s = .ok t) :
    (∃ d v, dst = .rm (.reg d) ∧ t = s.regWrite d v) ∨
    (∃ m v mem, dst = .rm (.mem m) ∧ s.mem.store c (s.ea m.ref) m.width v = .ok mem ∧ t = { s with mem := mem }) := by
  unfold mov at h
  split at h
  · cases h
  · next d hd =>
    have hdst : dst = .rm d := by
      unfold movTarget at hd
      split at hd <;> first | cases hd | (split at hd <;> first | (cases hd; rfl) | cases hd)
    split at h
    · cases h
    · next v _ =>
      cases d with
      | reg d => cases h; exact .inl ⟨d, v, hdst, rfl⟩
      | mem m =>
        simp only [State.operandWrite] at h
        split at h
        · cases h
        · next mem hs => cases h; exact .inr ⟨m, v, mem, hdst, hs, rfl⟩

/-- A fault of MOV: an invalid pair, or a word at offset 0xFFFF. -/
theorem mov_error {c : Config} {dst src : Operand} {s : State} {f : Fault} (h : mov c dst src s = .error f) :
    f = badOperands .mov (some dst) (some src) ∨ f = .outOfBounds 0xFFFF := by
  unfold mov at h
  split at h
  · cases h; exact .inl rfl
  · next d _ =>
    right
    split at h
    · next f' hr =>
      cases h
      rcases src with (r | m) | i | k
      · cases hr
      · exact Memory.load_error hr
      · cases hr
      · cases hr
    · cases d with
      | reg d => cases h
      | mem m =>
        simp only [State.operandWrite] at h
        split at h
        · next hs => cases h; exact Memory.store_error hs
        · cases h

/-- MOV to a register of the source's width, the source being a register or an immediate. -/
theorem mov_reg_reg (c : Config) (s : State) {d r : Reg} (h : d.width = r.width) :
    mov c (.rm (.reg d)) (.rm (.reg r)) s = .ok (s.regWrite d (s.regRead r)) := by
  simp [mov, movTarget, h]

theorem mov_reg_imm (c : Config) (s : State) {d : Reg} {i : Imm} (h : d.width = i.width) :
    mov c (.rm (.reg d)) (.imm i) s = .ok (s.regWrite d (immValue i)) := by
  simp [mov, movTarget, h]

theorem mov_reg_mem (c : Config) (s : State) {d : Reg} {m : MemOperand} (h : d.width = m.width)
    (hr : InRange m.width (s.ea m.ref)) :
    mov c (.rm (.reg d)) (.rm (.mem m)) s = .ok (s.regWrite d (s.bytesAt m.width (s.ea m.ref))) := by
  simp [mov, movTarget, h, State.load_of_inRange c s hr]

theorem mov_mem_reg (c : Config) (s : State) {m : MemOperand} {r : Reg} (h : m.width = r.width) :
    mov c (.rm (.mem m)) (.rm (.reg r)) s = s.operandWrite c (.mem m) (s.regRead r) := by
  simp [mov, movTarget, h]

theorem mov_mem_imm (c : Config) (s : State) {m : MemOperand} {i : Imm} (h : m.width = i.width) :
    mov c (.rm (.mem m)) (.imm i) s = s.operandWrite c (.mem m) (immValue i) := by
  simp [mov, movTarget, h]

/-! ## ADD, SUB, CMP -/

@[simp] theorem State.writeBack_pc (s : State) (op : ArithOp) (r : Reg) (v : Word) : (s.writeBack op r v).pc = s.pc := by
  cases op <;> rfl
@[simp] theorem State.writeBack_flags (s : State) (op : ArithOp) (r : Reg) (v : Word) :
    (s.writeBack op r v).flags = s.flags := by
  cases op <;> rfl
@[simp] theorem State.writeBack_mem (s : State) (op : ArithOp) (r : Reg) (v : Word) :
    (s.writeBack op r v).mem = s.mem := by
  cases op <;> rfl
@[simp] theorem State.writeBack_status (s : State) (op : ArithOp) (r : Reg) (v : Word) :
    (s.writeBack op r v).status = s.status := by
  cases op <;> rfl
@[simp] theorem State.writeBack_image (s : State) (op : ArithOp) (r : Reg) (v : Word) :
    (s.writeBack op r v).image = s.image := by
  cases op <;> rfl

/-- The state an ALU operation on register `d` with source value `b` leaves. -/
def State.computed (s : State) (op : ArithOp) (d : Reg) (b : Word) : State :=
  (s.writeBack op d (alu op (s.regRead d) b d.width)).setFlags (alu op (s.regRead d) b d.width) d.width

/-- An answer of an ALU operation: the destination is a register and the source value some `b`. -/
theorem arith_ok {c : Config} {op : ArithOp} {dst src : Operand} {s t : State} (h : arith c op dst src s = .ok t) :
    ∃ d b, dst = .rm (.reg d) ∧ s.operandRead c src = .ok b ∧ t = s.computed op d b := by
  unfold arith at h
  split at h
  · next r hsrc =>
    split at h
    · cases h
    · next b hb => cases h; exact ⟨r, b, rfl, hb, rfl⟩
  · cases h

/-- A fault of an ALU operation: an operand kind that is not admitted, or a word read at offset 0xFFFF. -/
theorem arith_error {c : Config} {op : ArithOp} {dst src : Operand} {s : State} {f : Fault}
    (h : arith c op dst src s = .error f) :
    f = badOperands (arithTag op) (some dst) (some src) ∨ f = .outOfBounds 0xFFFF := by
  unfold arith at h
  split at h
  · right
    split at h
    · next f' hr =>
      cases h
      rcases src with (r | m) | i | k
      · cases hr
      · exact Memory.load_error hr
      · cases hr
      · cases hr
    · cases h
  · cases h; exact .inl rfl

theorem arith_reg_reg (c : Config) (op : ArithOp) (s : State) (d r : Reg) :
    arith c op (.rm (.reg d)) (.rm (.reg r)) s = .ok (s.computed op d (s.regRead r)) := rfl

theorem arith_reg_imm (c : Config) (op : ArithOp) (s : State) (d : Reg) (i : Imm) :
    arith c op (.rm (.reg d)) (.imm i) s = .ok (s.computed op d (immValue i)) := rfl

/-! ## Every instruction -/

/-- What executing an instruction can give: a register written or memory stored to (MOV), an ALU result (ADD, SUB, CMP), a
jump (JNE), or a fault raised on the state before it with nothing else changed. -/
def ExecEffect (i : Instr) (s : State) (x : Host.Outcome State Fault Refusal) : Prop :=
  (∃ d v, i.op = .mov ∧ x = .next (s.regWrite d v)) ∨
  (∃ m v mem, storesTo i = some m ∧ s.mem.store config (s.ea m.ref) m.width v = .ok mem ∧
    x = .next { s with mem := mem }) ∨
  (∃ op d b, i.op = arithTag op ∧ x = .next (s.computed op d b)) ∨
  (∃ rel, i = .jne rel ∧ x = .next (jumpNotEqual rel s)) ∨
  (∃ f, x = .next (s.raise f) ∧
    ((∃ dst src, f = .unsupportedOperandCombination i.op dst src) ∨ f = .outOfBounds 0xFFFF))

theorem ExecEffect.of_mov {i : Instr} {s : State} {dst src : Operand} (hop : i.op = .mov)
    (hst : ∀ m, dst = .rm (.mem m) → storesTo i = some m) : ExecEffect i s (s.settle (mov config dst src s)) := by
  cases hx : mov config dst src s with
  | ok t =>
    rcases mov_ok hx with ⟨d, v, _, rfl⟩ | ⟨m, v, mem, hd, hs, rfl⟩
    · exact .inl ⟨d, v, hop, rfl⟩
    · exact .inr (.inl ⟨m, v, mem, hst m hd, hs, rfl⟩)
  | error f =>
    refine .inr (.inr (.inr (.inr ⟨f, rfl, ?_⟩)))
    rcases mov_error hx with rfl | rfl
    · exact .inl ⟨_, _, by rw [hop]; rfl⟩
    · exact .inr rfl

theorem ExecEffect.of_arith {i : Instr} {s : State} {dst src : Operand} (op : ArithOp) (hop : i.op = arithTag op) :
    ExecEffect i s (s.settle (arith config op dst src s)) := by
  cases hx : arith config op dst src s with
  | ok t =>
    obtain ⟨d, b, _, _, rfl⟩ := arith_ok hx
    exact .inr (.inr (.inl ⟨op, d, b, hop, rfl⟩))
  | error f =>
    refine .inr (.inr (.inr (.inr ⟨f, rfl, ?_⟩)))
    rcases arith_error hx with rfl | rfl
    · exact .inl ⟨_, _, by rw [hop]; rfl⟩
    · exact .inr rfl

theorem ExecEffect.of_decodeOnly {i : Instr} {s : State} (rel : Byte) :
    ExecEffect i s (s.settle (decodeOnly i.op rel)) :=
  .inr (.inr (.inr (.inr ⟨_, rfl, .inl ⟨_, _, rfl⟩⟩)))

/-- The effect of every instruction. -/
theorem exec_effect (i : Instr) (s : State) : ExecEffect i s (exec i s) := by
  cases i
  case movRmReg => exact .of_mov rfl fun m h => by cases h; rfl
  case movRegRm => exact .of_mov rfl fun m h => by cases h
  case movRmImm => exact .of_mov rfl fun m h => by cases h; rfl
  case movRegImm => exact .of_mov rfl fun m h => by cases h
  case movAccMem => exact .of_mov rfl fun m h => by cases h
  case movMemAcc => exact .of_mov rfl fun m h => by cases h; rfl
  case addRmReg | addRegRm | addRmImm => exact .of_arith .add rfl
  case addAccImm i => exact ExecEffect.of_arith (dst := .rm (.reg (accumulator i.width))) (src := .imm i) .add rfl
  case subRmReg | subRegRm | subRmImm => exact .of_arith .sub rfl
  case subAccImm i => exact ExecEffect.of_arith (dst := .rm (.reg (accumulator i.width))) (src := .imm i) .sub rfl
  case cmpRmReg | cmpRegRm | cmpRmImm => exact .of_arith .cmp rfl
  case cmpAccImm i => exact ExecEffect.of_arith (dst := .rm (.reg (accumulator i.width))) (src := .imm i) .cmp rfl
  case jne rel => exact .inr (.inr (.inr (.inl ⟨rel, rfl, rfl⟩)))
  all_goals exact .of_decodeOnly _

/-- Every instruction gives a next state: no arm answers a fault or a refusal. -/
theorem exec_next (i : Instr) (s : State) : ∃ t, exec i s = .next t := by
  rcases exec_effect i s with ⟨_, _, _, h⟩ | ⟨_, _, _, _, _, h⟩ | ⟨_, _, _, _, h⟩ | ⟨_, _, h⟩ | ⟨_, h, _⟩ <;>
    exact ⟨_, h⟩

/-- What a step can do: nothing (Halted, Faulted), refuse an overlong image, halt at the end of the image, raise F1, or
execute the decoded instruction with pc advanced. -/
theorem step_cases (s : State) :
    (s.status ≠ .running ∧ step s = .next s) ∨
    (s.status = .running ∧ maxProgLen < s.progLen ∧ step s = .refused (.imageTooLong s.progLen)) ∨
    (s.status = .running ∧ s.progLen ≤ s.pc.toNat ∧ step s = .next { s with status := .halted }) ∨
    (s.status = .running ∧ ∃ b0 b1, decode (fetch s.image s.pc) = .error (.unsupportedOpcode b0 b1) ∧
      step s = .next (s.raise (.unsupportedOpcode b0 b1 s.pc))) ∨
    (s.status = .running ∧ s.progLen ≤ maxProgLen ∧ s.pc.toNat < s.progLen ∧
      ∃ i, decode (fetch s.image s.pc) = .ok i ∧ step s = exec i (s.advance i.len)) := by
  unfold step cycle
  cases hs : s.status with
  | halted => exact .inl ⟨by simp, rfl⟩
  | faulted f => exact .inl ⟨by simp, rfl⟩
  | running =>
    right
    dsimp only
    split
    · next h => exact .inl ⟨rfl, h, rfl⟩
    · next hlen =>
      split
      · next h => exact .inr (.inl ⟨rfl, h, rfl⟩)
      · next hpc =>
        cases hd : decode (fetch s.image s.pc) with
        | error e =>
          obtain ⟨b0, b1⟩ := e
          exact .inr (.inr (.inl ⟨rfl, b0, b1, rfl, rfl⟩))
        | ok i => exact .inr (.inr (.inr ⟨rfl, Nat.le_of_not_lt hlen, Nat.lt_of_not_le hpc, i, rfl, rfl⟩))

end Sys2Proof.Machine
end

