-- ==== Sys2Proof/Laws/PerInstr.lean ====
section
/-! SUPPORT. The statements made per instruction: its encoded length (30_encoding.md R108) and the row of
spec/opcode_table.json its bytes match (R118). -/

open Sys2Proof Sys2Proof.Machine

/-- The encoding of `i` is as long as `i` says (R108), from 2 to 6 bytes. -/
def Sys2Proof.Laws.Length.Statement (i : Instr) : Prop :=
  (encode i).length = i.len ∧ 2 ≤ i.len ∧ i.len ≤ windowLen

/-- The bytes of a well-formed `i`, whatever follows them, are selected by `i`'s row of the opcode table (R118). -/
def Sys2Proof.Laws.Row.Statement (i : Instr) : Prop :=
  i.WellFormed → ∀ rest : List Byte, i.row.Selects (Window.ofBytes (encode i ++ rest))

/-! ## Lengths -/

/-- The two shapes with an operand selected by mod and rm, and format RI or AI. -/
theorem Sys2Proof.Laws.Length.rm_bounds (rm : RM) : 2 ≤ 2 + rm.dispLen ∧ 2 + rm.dispLen ≤ windowLen := by
  have := rm.dispLen_le
  simp only [windowLen]; omega

theorem Sys2Proof.Laws.Length.rmImm_bounds (rm : RM) {n : Nat} (h : 1 ≤ n ∧ n ≤ 2) :
    2 ≤ 2 + rm.dispLen + n ∧ 2 + rm.dispLen + n ≤ windowLen := by
  have := rm.dispLen_le
  simp only [windowLen]; omega

theorem Sys2Proof.Laws.Length.imm_bounds (i : Imm) : 2 ≤ 1 + i.len ∧ 1 + i.len ≤ windowLen := by
  have := i.len_bounds
  simp only [windowLen]; omega

theorem Sys2Proof.Laws.Length.jo (rel : Byte) :
    Sys2Proof.Laws.Length.Statement (.jo rel) :=
  ⟨rfl, by simp [Instr.len], by simp [Instr.len, windowLen]⟩

theorem Sys2Proof.Laws.Length.jno (rel : Byte) :
    Sys2Proof.Laws.Length.Statement (.jno rel) :=
  ⟨rfl, by simp [Instr.len], by simp [Instr.len, windowLen]⟩

theorem Sys2Proof.Laws.Length.jb (rel : Byte) :
    Sys2Proof.Laws.Length.Statement (.jb rel) :=
  ⟨rfl, by simp [Instr.len], by simp [Instr.len, windowLen]⟩

theorem Sys2Proof.Laws.Length.jnb (rel : Byte) :
    Sys2Proof.Laws.Length.Statement (.jnb rel) :=
  ⟨rfl, by simp [Instr.len], by simp [Instr.len, windowLen]⟩

theorem Sys2Proof.Laws.Length.je (rel : Byte) :
    Sys2Proof.Laws.Length.Statement (.je rel) :=
  ⟨rfl, by simp [Instr.len], by simp [Instr.len, windowLen]⟩

theorem Sys2Proof.Laws.Length.jne (rel : Byte) :
    Sys2Proof.Laws.Length.Statement (.jne rel) :=
  ⟨rfl, by simp [Instr.len], by simp [Instr.len, windowLen]⟩

theorem Sys2Proof.Laws.Length.jbe (rel : Byte) :
    Sys2Proof.Laws.Length.Statement (.jbe rel) :=
  ⟨rfl, by simp [Instr.len], by simp [Instr.len, windowLen]⟩

theorem Sys2Proof.Laws.Length.ja (rel : Byte) :
    Sys2Proof.Laws.Length.Statement (.ja rel) :=
  ⟨rfl, by simp [Instr.len], by simp [Instr.len, windowLen]⟩

theorem Sys2Proof.Laws.Length.js (rel : Byte) :
    Sys2Proof.Laws.Length.Statement (.js rel) :=
  ⟨rfl, by simp [Instr.len], by simp [Instr.len, windowLen]⟩

theorem Sys2Proof.Laws.Length.jns (rel : Byte) :
    Sys2Proof.Laws.Length.Statement (.jns rel) :=
  ⟨rfl, by simp [Instr.len], by simp [Instr.len, windowLen]⟩

theorem Sys2Proof.Laws.Length.jp (rel : Byte) :
    Sys2Proof.Laws.Length.Statement (.jp rel) :=
  ⟨rfl, by simp [Instr.len], by simp [Instr.len, windowLen]⟩

theorem Sys2Proof.Laws.Length.jnp (rel : Byte) :
    Sys2Proof.Laws.Length.Statement (.jnp rel) :=
  ⟨rfl, by simp [Instr.len], by simp [Instr.len, windowLen]⟩

theorem Sys2Proof.Laws.Length.jl (rel : Byte) :
    Sys2Proof.Laws.Length.Statement (.jl rel) :=
  ⟨rfl, by simp [Instr.len], by simp [Instr.len, windowLen]⟩

theorem Sys2Proof.Laws.Length.jge (rel : Byte) :
    Sys2Proof.Laws.Length.Statement (.jge rel) :=
  ⟨rfl, by simp [Instr.len], by simp [Instr.len, windowLen]⟩

theorem Sys2Proof.Laws.Length.jle (rel : Byte) :
    Sys2Proof.Laws.Length.Statement (.jle rel) :=
  ⟨rfl, by simp [Instr.len], by simp [Instr.len, windowLen]⟩

theorem Sys2Proof.Laws.Length.jg (rel : Byte) :
    Sys2Proof.Laws.Length.Statement (.jg rel) :=
  ⟨rfl, by simp [Instr.len], by simp [Instr.len, windowLen]⟩

theorem Sys2Proof.Laws.Length.loopnz (rel : Byte) :
    Sys2Proof.Laws.Length.Statement (.loopnz rel) :=
  ⟨rfl, by simp [Instr.len], by simp [Instr.len, windowLen]⟩

theorem Sys2Proof.Laws.Length.loopz (rel : Byte) :
    Sys2Proof.Laws.Length.Statement (.loopz rel) :=
  ⟨rfl, by simp [Instr.len], by simp [Instr.len, windowLen]⟩

theorem Sys2Proof.Laws.Length.loop (rel : Byte) :
    Sys2Proof.Laws.Length.Statement (.loop rel) :=
  ⟨rfl, by simp [Instr.len], by simp [Instr.len, windowLen]⟩

theorem Sys2Proof.Laws.Length.jcxz (rel : Byte) :
    Sys2Proof.Laws.Length.Statement (.jcxz rel) :=
  ⟨rfl, by simp [Instr.len], by simp [Instr.len, windowLen]⟩

theorem Sys2Proof.Laws.Length.movRmReg (rm : RM) (r : Reg) :
    Sys2Proof.Laws.Length.Statement (.movRmReg rm r) :=
  ⟨by simp [encode, Instr.len]; omega, Sys2Proof.Laws.Length.rm_bounds rm⟩

theorem Sys2Proof.Laws.Length.movRegRm (r : Reg) (rm : RM) :
    Sys2Proof.Laws.Length.Statement (.movRegRm r rm) :=
  ⟨by simp [encode, Instr.len]; omega, Sys2Proof.Laws.Length.rm_bounds rm⟩

theorem Sys2Proof.Laws.Length.movRmImm (rm : RM) (i : Imm) :
    Sys2Proof.Laws.Length.Statement (.movRmImm rm i) :=
  ⟨by simp [encode, Instr.len]; omega,
    Sys2Proof.Laws.Length.rmImm_bounds rm i.len_bounds⟩

theorem Sys2Proof.Laws.Length.addRmReg (rm : RM) (r : Reg) :
    Sys2Proof.Laws.Length.Statement (.addRmReg rm r) :=
  ⟨by simp [encode, Instr.len]; omega, Sys2Proof.Laws.Length.rm_bounds rm⟩

theorem Sys2Proof.Laws.Length.addRegRm (r : Reg) (rm : RM) :
    Sys2Proof.Laws.Length.Statement (.addRegRm r rm) :=
  ⟨by simp [encode, Instr.len]; omega, Sys2Proof.Laws.Length.rm_bounds rm⟩

theorem Sys2Proof.Laws.Length.addRmImm (rm : RM) (i : GroupImm) :
    Sys2Proof.Laws.Length.Statement (.addRmImm rm i) :=
  ⟨by simp [encode, encodeGroup, Instr.len]; omega,
    Sys2Proof.Laws.Length.rmImm_bounds rm i.len_bounds⟩

theorem Sys2Proof.Laws.Length.addAccImm (i : Imm) :
    Sys2Proof.Laws.Length.Statement (.addAccImm i) :=
  ⟨by simp [encode, Instr.len]; omega, Sys2Proof.Laws.Length.imm_bounds i⟩

theorem Sys2Proof.Laws.Length.subRmReg (rm : RM) (r : Reg) :
    Sys2Proof.Laws.Length.Statement (.subRmReg rm r) :=
  ⟨by simp [encode, Instr.len]; omega, Sys2Proof.Laws.Length.rm_bounds rm⟩

theorem Sys2Proof.Laws.Length.subRegRm (r : Reg) (rm : RM) :
    Sys2Proof.Laws.Length.Statement (.subRegRm r rm) :=
  ⟨by simp [encode, Instr.len]; omega, Sys2Proof.Laws.Length.rm_bounds rm⟩

theorem Sys2Proof.Laws.Length.subRmImm (rm : RM) (i : GroupImm) :
    Sys2Proof.Laws.Length.Statement (.subRmImm rm i) :=
  ⟨by simp [encode, encodeGroup, Instr.len]; omega,
    Sys2Proof.Laws.Length.rmImm_bounds rm i.len_bounds⟩

theorem Sys2Proof.Laws.Length.subAccImm (i : Imm) :
    Sys2Proof.Laws.Length.Statement (.subAccImm i) :=
  ⟨by simp [encode, Instr.len]; omega, Sys2Proof.Laws.Length.imm_bounds i⟩

theorem Sys2Proof.Laws.Length.cmpRmReg (rm : RM) (r : Reg) :
    Sys2Proof.Laws.Length.Statement (.cmpRmReg rm r) :=
  ⟨by simp [encode, Instr.len]; omega, Sys2Proof.Laws.Length.rm_bounds rm⟩

theorem Sys2Proof.Laws.Length.cmpRegRm (r : Reg) (rm : RM) :
    Sys2Proof.Laws.Length.Statement (.cmpRegRm r rm) :=
  ⟨by simp [encode, Instr.len]; omega, Sys2Proof.Laws.Length.rm_bounds rm⟩

theorem Sys2Proof.Laws.Length.cmpRmImm (rm : RM) (i : GroupImm) :
    Sys2Proof.Laws.Length.Statement (.cmpRmImm rm i) :=
  ⟨by simp [encode, encodeGroup, Instr.len]; omega,
    Sys2Proof.Laws.Length.rmImm_bounds rm i.len_bounds⟩

theorem Sys2Proof.Laws.Length.cmpAccImm (i : Imm) :
    Sys2Proof.Laws.Length.Statement (.cmpAccImm i) :=
  ⟨by simp [encode, Instr.len]; omega, Sys2Proof.Laws.Length.imm_bounds i⟩

theorem Sys2Proof.Laws.Length.movRegImm (r : Reg) (i : Imm) :
    Sys2Proof.Laws.Length.Statement (.movRegImm r i) :=
  ⟨by simp [encode, Instr.len]; omega, Sys2Proof.Laws.Length.imm_bounds i⟩

theorem Sys2Proof.Laws.Length.movAccMem (w : Width) (addr : Word) :
    Sys2Proof.Laws.Length.Statement (.movAccMem w addr) :=
  ⟨rfl, by simp [Instr.len], by simp [Instr.len, windowLen]⟩

theorem Sys2Proof.Laws.Length.movMemAcc (addr : Word) (w : Width) :
    Sys2Proof.Laws.Length.Statement (.movMemAcc addr w) :=
  ⟨rfl, by simp [Instr.len], by simp [Instr.len, windowLen]⟩

/-! ## Rows -/

/-- Where the row fixes no bit of the second byte, the first byte decides. -/
theorem Sys2Proof.Laws.Row.of_first {i : Instr} {b x y : Byte} {bs : List Byte} (he : encode i = b :: bs)
    (hm : i.row.mask = joinBytes x 0) (hp : i.row.pattern = joinBytes y 0) (h : b &&& x = y) :
    Sys2Proof.Laws.Row.Statement i := by
  intro _ rest
  rw [TableRow.selects_iff, he, hm, hp, hiByte_joinBytes, hiByte_joinBytes, loByte_joinBytes, loByte_joinBytes]
  exact ⟨h, BitVec.and_zero⟩

theorem Sys2Proof.Laws.Row.opcode7_and (bits : BitVec 7) (w : Width) :
    opcode7 bits w &&& 0xFE = opcode7 bits .byte := by
  cases w <;> decide +revert

theorem Sys2Proof.Laws.Row.riByte_and (w : Width) (f : BitVec 3) : riByte w f &&& 0xF0 = 0xB0 := by
  cases w <;> decide +revert

theorem Sys2Proof.Laws.Row.groupByte_and (g : GroupImm) :
    (0b100000#6 ++ g.sBit ++ g.width.bit : Byte) &&& 0xFC = 0x80 := by
  have h : ∀ (s : Bool) (w : Width), groupByte s w &&& 0xFC = 0x80 := by intro s w; cases s <;> cases w <;> decide
  rw [groupByte_eq]
  exact h _ _

/-- Format RMI: the first byte and the middle field decide. -/
theorem Sys2Proof.Laws.Row.of_regField {i : Instr} {b0 x y : Byte} {rm : RM} {sub : BitVec 3} {bs : List Byte}
    (he : encode i = (b0 :: rm.encode sub) ++ bs) (hm : i.row.mask = joinBytes x 0x38)
    (hp : i.row.pattern = joinBytes y (0#2 ++ sub ++ 0#3)) (h : b0 &&& x = y) :
    Sys2Proof.Laws.Row.Statement i := by
  intro _ rest
  have hr := regField_encode rm sub b0 (bs ++ rest)
  rw [TableRow.selects_iff, hm, hp, he, List.append_assoc, List.cons_append, hiByte_joinBytes, hiByte_joinBytes,
    loByte_joinBytes, loByte_joinBytes, and_0x38, hr]
  exact ⟨h, rfl⟩

theorem Sys2Proof.Laws.Row.jo (rel : Byte) :
    Sys2Proof.Laws.Row.Statement (.jo rel) := Sys2Proof.Laws.Row.of_first rfl rfl rfl BitVec.and_allOnes

theorem Sys2Proof.Laws.Row.jno (rel : Byte) :
    Sys2Proof.Laws.Row.Statement (.jno rel) := Sys2Proof.Laws.Row.of_first rfl rfl rfl BitVec.and_allOnes

theorem Sys2Proof.Laws.Row.jb (rel : Byte) :
    Sys2Proof.Laws.Row.Statement (.jb rel) := Sys2Proof.Laws.Row.of_first rfl rfl rfl BitVec.and_allOnes

theorem Sys2Proof.Laws.Row.jnb (rel : Byte) :
    Sys2Proof.Laws.Row.Statement (.jnb rel) := Sys2Proof.Laws.Row.of_first rfl rfl rfl BitVec.and_allOnes

theorem Sys2Proof.Laws.Row.je (rel : Byte) :
    Sys2Proof.Laws.Row.Statement (.je rel) := Sys2Proof.Laws.Row.of_first rfl rfl rfl BitVec.and_allOnes

theorem Sys2Proof.Laws.Row.jne (rel : Byte) :
    Sys2Proof.Laws.Row.Statement (.jne rel) := Sys2Proof.Laws.Row.of_first rfl rfl rfl BitVec.and_allOnes

theorem Sys2Proof.Laws.Row.jbe (rel : Byte) :
    Sys2Proof.Laws.Row.Statement (.jbe rel) := Sys2Proof.Laws.Row.of_first rfl rfl rfl BitVec.and_allOnes

theorem Sys2Proof.Laws.Row.ja (rel : Byte) :
    Sys2Proof.Laws.Row.Statement (.ja rel) := Sys2Proof.Laws.Row.of_first rfl rfl rfl BitVec.and_allOnes

theorem Sys2Proof.Laws.Row.js (rel : Byte) :
    Sys2Proof.Laws.Row.Statement (.js rel) := Sys2Proof.Laws.Row.of_first rfl rfl rfl BitVec.and_allOnes

theorem Sys2Proof.Laws.Row.jns (rel : Byte) :
    Sys2Proof.Laws.Row.Statement (.jns rel) := Sys2Proof.Laws.Row.of_first rfl rfl rfl BitVec.and_allOnes

theorem Sys2Proof.Laws.Row.jp (rel : Byte) :
    Sys2Proof.Laws.Row.Statement (.jp rel) := Sys2Proof.Laws.Row.of_first rfl rfl rfl BitVec.and_allOnes

theorem Sys2Proof.Laws.Row.jnp (rel : Byte) :
    Sys2Proof.Laws.Row.Statement (.jnp rel) := Sys2Proof.Laws.Row.of_first rfl rfl rfl BitVec.and_allOnes

theorem Sys2Proof.Laws.Row.jl (rel : Byte) :
    Sys2Proof.Laws.Row.Statement (.jl rel) := Sys2Proof.Laws.Row.of_first rfl rfl rfl BitVec.and_allOnes

theorem Sys2Proof.Laws.Row.jge (rel : Byte) :
    Sys2Proof.Laws.Row.Statement (.jge rel) := Sys2Proof.Laws.Row.of_first rfl rfl rfl BitVec.and_allOnes

theorem Sys2Proof.Laws.Row.jle (rel : Byte) :
    Sys2Proof.Laws.Row.Statement (.jle rel) := Sys2Proof.Laws.Row.of_first rfl rfl rfl BitVec.and_allOnes

theorem Sys2Proof.Laws.Row.jg (rel : Byte) :
    Sys2Proof.Laws.Row.Statement (.jg rel) := Sys2Proof.Laws.Row.of_first rfl rfl rfl BitVec.and_allOnes

theorem Sys2Proof.Laws.Row.loopnz (rel : Byte) :
    Sys2Proof.Laws.Row.Statement (.loopnz rel) := Sys2Proof.Laws.Row.of_first rfl rfl rfl BitVec.and_allOnes

theorem Sys2Proof.Laws.Row.loopz (rel : Byte) :
    Sys2Proof.Laws.Row.Statement (.loopz rel) := Sys2Proof.Laws.Row.of_first rfl rfl rfl BitVec.and_allOnes

theorem Sys2Proof.Laws.Row.loop (rel : Byte) :
    Sys2Proof.Laws.Row.Statement (.loop rel) := Sys2Proof.Laws.Row.of_first rfl rfl rfl BitVec.and_allOnes

theorem Sys2Proof.Laws.Row.jcxz (rel : Byte) :
    Sys2Proof.Laws.Row.Statement (.jcxz rel) := Sys2Proof.Laws.Row.of_first rfl rfl rfl BitVec.and_allOnes

theorem Sys2Proof.Laws.Row.movRmReg (rm : RM) (r : Reg) :
    Sys2Proof.Laws.Row.Statement (.movRmReg rm r) :=
  Sys2Proof.Laws.Row.of_first rfl rfl rfl (Sys2Proof.Laws.Row.opcode7_and _ _)

theorem Sys2Proof.Laws.Row.movRegRm (r : Reg) (rm : RM) :
    Sys2Proof.Laws.Row.Statement (.movRegRm r rm) :=
  Sys2Proof.Laws.Row.of_first rfl rfl rfl (Sys2Proof.Laws.Row.opcode7_and _ _)

theorem Sys2Proof.Laws.Row.movRmImm (rm : RM) (i : Imm) :
    Sys2Proof.Laws.Row.Statement (.movRmImm rm i) :=
  Sys2Proof.Laws.Row.of_regField rfl rfl rfl (Sys2Proof.Laws.Row.opcode7_and _ _)

theorem Sys2Proof.Laws.Row.addRmReg (rm : RM) (r : Reg) :
    Sys2Proof.Laws.Row.Statement (.addRmReg rm r) :=
  Sys2Proof.Laws.Row.of_first rfl rfl rfl (Sys2Proof.Laws.Row.opcode7_and _ _)

theorem Sys2Proof.Laws.Row.addRegRm (r : Reg) (rm : RM) :
    Sys2Proof.Laws.Row.Statement (.addRegRm r rm) :=
  Sys2Proof.Laws.Row.of_first rfl rfl rfl (Sys2Proof.Laws.Row.opcode7_and _ _)

theorem Sys2Proof.Laws.Row.addRmImm (rm : RM) (i : GroupImm) :
    Sys2Proof.Laws.Row.Statement (.addRmImm rm i) :=
  Sys2Proof.Laws.Row.of_regField rfl rfl rfl (Sys2Proof.Laws.Row.groupByte_and i)

theorem Sys2Proof.Laws.Row.addAccImm (i : Imm) :
    Sys2Proof.Laws.Row.Statement (.addAccImm i) :=
  Sys2Proof.Laws.Row.of_first rfl rfl rfl (Sys2Proof.Laws.Row.opcode7_and _ _)

theorem Sys2Proof.Laws.Row.subRmReg (rm : RM) (r : Reg) :
    Sys2Proof.Laws.Row.Statement (.subRmReg rm r) :=
  Sys2Proof.Laws.Row.of_first rfl rfl rfl (Sys2Proof.Laws.Row.opcode7_and _ _)

theorem Sys2Proof.Laws.Row.subRegRm (r : Reg) (rm : RM) :
    Sys2Proof.Laws.Row.Statement (.subRegRm r rm) :=
  Sys2Proof.Laws.Row.of_first rfl rfl rfl (Sys2Proof.Laws.Row.opcode7_and _ _)

theorem Sys2Proof.Laws.Row.subRmImm (rm : RM) (i : GroupImm) :
    Sys2Proof.Laws.Row.Statement (.subRmImm rm i) :=
  Sys2Proof.Laws.Row.of_regField rfl rfl rfl (Sys2Proof.Laws.Row.groupByte_and i)

theorem Sys2Proof.Laws.Row.subAccImm (i : Imm) :
    Sys2Proof.Laws.Row.Statement (.subAccImm i) :=
  Sys2Proof.Laws.Row.of_first rfl rfl rfl (Sys2Proof.Laws.Row.opcode7_and _ _)

theorem Sys2Proof.Laws.Row.cmpRmReg (rm : RM) (r : Reg) :
    Sys2Proof.Laws.Row.Statement (.cmpRmReg rm r) :=
  Sys2Proof.Laws.Row.of_first rfl rfl rfl (Sys2Proof.Laws.Row.opcode7_and _ _)

theorem Sys2Proof.Laws.Row.cmpRegRm (r : Reg) (rm : RM) :
    Sys2Proof.Laws.Row.Statement (.cmpRegRm r rm) :=
  Sys2Proof.Laws.Row.of_first rfl rfl rfl (Sys2Proof.Laws.Row.opcode7_and _ _)

theorem Sys2Proof.Laws.Row.cmpRmImm (rm : RM) (i : GroupImm) :
    Sys2Proof.Laws.Row.Statement (.cmpRmImm rm i) :=
  Sys2Proof.Laws.Row.of_regField rfl rfl rfl (Sys2Proof.Laws.Row.groupByte_and i)

theorem Sys2Proof.Laws.Row.cmpAccImm (i : Imm) :
    Sys2Proof.Laws.Row.Statement (.cmpAccImm i) :=
  Sys2Proof.Laws.Row.of_first rfl rfl rfl (Sys2Proof.Laws.Row.opcode7_and _ _)

theorem Sys2Proof.Laws.Row.movRegImm (r : Reg) (i : Imm) :
    Sys2Proof.Laws.Row.Statement (.movRegImm r i) :=
  Sys2Proof.Laws.Row.of_first rfl rfl rfl <| Sys2Proof.Laws.Row.riByte_and r.width r.code

theorem Sys2Proof.Laws.Row.movAccMem (w : Width) (addr : Word) :
    Sys2Proof.Laws.Row.Statement (.movAccMem w addr) :=
  Sys2Proof.Laws.Row.of_first rfl rfl rfl (Sys2Proof.Laws.Row.opcode7_and _ _)

theorem Sys2Proof.Laws.Row.movMemAcc (addr : Word) (w : Width) :
    Sys2Proof.Laws.Row.Statement (.movMemAcc addr w) :=
  Sys2Proof.Laws.Row.of_first rfl rfl rfl (Sys2Proof.Laws.Row.opcode7_and _ _)
end

