-- ==== Sys2Proof/Tests/Slice0.lean ====
section
/-! SUPPORT. The model's own tests. Expected results are the spec's vectors (95_test_vectors.md, by their numbers); the
witnesses show that the hypotheses of each statement can be met. -/

namespace Sys2Proof.Tests

open Sys2Proof.Machine

/-! ## WellFormed refuses -/

/-- `[bp]` without a displacement (R95). -/
theorem test_wf_bare_bp : (Instr.movRegRm (.word .ax) (.mem ⟨.based .bp .none, .word⟩)).wf = false := by decide

/-- An r/m operand of another width than the register (R63). -/
theorem test_wf_rm_reg_width : (Instr.addRmReg (.reg (.word .ax)) (.byte .bl)).wf = false := by decide

/-- An r/m operand of another width than the immediate (R63). -/
theorem test_wf_rm_imm_width : (Instr.cmpRmImm (.mem ⟨.direct 16, .byte⟩) (.short 7)).wf = false := by decide

/-- A register of another width than the immediate (R63). -/
theorem test_wf_reg_imm_width : (Instr.movRegImm (.byte .al) (.word 1)).wf = false := by decide

/-! ## Decoding, against the words of the spec -/

/-- The bytes decode to `i`, whose text and length are these, and `i` encodes to them. -/
def reads (bytes : List Byte) (i : Instr) (text : String) (len : Nat) : Bool :=
  decode (Window.ofBytes bytes) == .ok i && listing (i.decoded config) == text && i.len == len && encode i == bytes

/-- The bytes are an unsupported opcode. -/
def refuses (bytes : List Byte) : Bool :=
  decode (Window.ofBytes bytes) == .error (.unsupportedOpcode (bytes.getD 0 0) (bytes.getD 1 0))

theorem test_decode_movRmReg :
    reads [0x89, 0xD9] (.movRmReg (.reg (.word .cx)) (.word .bx)) "mov cx, bx" 2 ∧
    reads [0x88, 0xE0] (.movRmReg (.reg (.byte .al)) (.byte .ah)) "mov al, ah" 2 ∧
    reads [0x89, 0x0E, 0x10, 0x00] (.movRmReg (.mem ⟨.direct 16, .word⟩) (.word .cx)) "mov word [16], cx" 4 ∧
    reads [0x88, 0x65, 0xFF] (.movRmReg (.mem ⟨.based .di (.d8 0xFF), .byte⟩) (.byte .ah)) "mov byte [di -1], ah" 3 := by
  decide

theorem test_decode_movRegRm :
    reads [0x8B, 0x5C, 0x21] (.movRegRm (.word .bx) (.mem ⟨.based .si (.d8 33), .word⟩)) "mov bx, word [si +33]" 3 ∧
    reads [0x8B, 0x94, 0xD0, 0x07] (.movRegRm (.word .dx) (.mem ⟨.based .si (.d16 2000), .word⟩)) "mov dx, word [si +2000]" 4 ∧
    reads [0x8B, 0x00] (.movRegRm (.word .ax) (.mem ⟨.based .bxSi .none, .word⟩)) "mov ax, word [bx + si]" 2 ∧
    reads [0x8A, 0x07] (.movRegRm (.byte .al) (.mem ⟨.based .bx .none, .byte⟩)) "mov al, byte [bx]" 2 ∧
    reads [0x8B, 0x46, 0x00] (.movRegRm (.word .ax) (.mem ⟨.based .bp (.d8 0), .word⟩)) "mov ax, word [bp +0]" 3 ∧
    reads [0x8B, 0x06, 0x21, 0x00] (.movRegRm (.word .ax) (.mem ⟨.direct 33, .word⟩)) "mov ax, word [33]" 4 ∧
    reads [0x8B, 0x81, 0x00, 0x80] (.movRegRm (.word .ax) (.mem ⟨.based .bxDi (.d16 0x8000), .word⟩)) "mov ax, word [bx + di -32768]" 4 ∧
    reads [0x8B, 0x42, 0x00] (.movRegRm (.word .ax) (.mem ⟨.based .bpSi (.d8 0), .word⟩)) "mov ax, word [bp + si +0]" 3 ∧
    reads [0x8B, 0x7B, 0x80] (.movRegRm (.word .di) (.mem ⟨.based .bpDi (.d8 0x80), .word⟩)) "mov di, word [bp + di -128]" 3 := by
  decide

theorem test_decode_movRmImm :
    reads [0xC6, 0x47, 0x05, 0xFF] (.movRmImm (.mem ⟨.based .bx (.d8 5), .byte⟩) (.byte 255)) "mov byte [bx +5], byte 255" 4 ∧
    reads [0xC7, 0xC0, 0x34, 0x12] (.movRmImm (.reg (.word .ax)) (.word 4660)) "mov ax, word 4660" 4 ∧
    reads [0xC7, 0x06, 0xE8, 0x03, 0x34, 0x12] (.movRmImm (.mem ⟨.direct 1000, .word⟩) (.word 4660)) "mov word [1000], word 4660" 6 ∧
    reads [0xC7, 0x86, 0xD0, 0x07, 0xFF, 0xFF] (.movRmImm (.mem ⟨.based .bp (.d16 2000), .word⟩) (.word 65535)) "mov word [bp +2000], word 65535" 6 := by
  decide

theorem test_decode_movRegImm :
    reads [0xB8, 0x34, 0x12] (.movRegImm (.word .ax) (.word 4660)) "mov ax, word 4660" 3 ∧
    reads [0xB1, 0x0C] (.movRegImm (.byte .cl) (.byte 12)) "mov cl, byte 12" 2 ∧
    reads [0xB4, 0x12] (.movRegImm (.byte .ah) (.byte 18)) "mov ah, byte 18" 2 ∧
    reads [0xBC, 0x00, 0x01] (.movRegImm (.word .sp) (.word 256)) "mov sp, word 256" 3 := by
  decide

theorem test_decode_movAccMem :
    reads [0xA1, 0x21, 0x00] (.movAccMem .word 33) "mov ax, word [33]" 3 ∧
    reads [0xA0, 0x10, 0x00] (.movAccMem .byte 16) "mov al, byte [16]" 3 := by
  decide

theorem test_decode_movMemAcc :
    reads [0xA2, 0x10, 0x00] (.movMemAcc 16 .byte) "mov byte [16], al" 3 ∧
    reads [0xA3, 0xE8, 0x03] (.movMemAcc 1000 .word) "mov word [1000], ax" 3 := by
  decide

theorem test_decode_addRmReg :
    reads [0x01, 0xD8] (.addRmReg (.reg (.word .ax)) (.word .bx)) "add ax, bx" 2 ∧
    reads [0x00, 0x07] (.addRmReg (.mem ⟨.based .bx .none, .byte⟩) (.byte .al)) "add byte [bx], al" 2 := by
  decide

theorem test_decode_addRegRm :
    reads [0x03, 0xC3] (.addRegRm (.word .ax) (.reg (.word .bx))) "add ax, bx" 2 ∧
    reads [0x03, 0x18] (.addRegRm (.word .bx) (.mem ⟨.based .bxSi .none, .word⟩)) "add bx, word [bx + si]" 2 := by
  decide

theorem test_decode_addRmImm :
    reads [0x80, 0xC3, 0x05] (.addRmImm (.reg (.byte .bl)) (.byte false 5)) "add bl, byte 5" 3 ∧
    reads [0x82, 0xC3, 0x05] (.addRmImm (.reg (.byte .bl)) (.byte true 5)) "add bl, byte 5" 3 ∧
    reads [0x83, 0xC3, 0xFF] (.addRmImm (.reg (.word .bx)) (.short 0xFF)) "add bx, word 65535" 3 ∧
    reads [0x81, 0xC1, 0x00, 0x80] (.addRmImm (.reg (.word .cx)) (.word 0x8000)) "add cx, word 32768" 4 ∧
    reads [0x83, 0x06, 0xE8, 0x03, 0xFE] (.addRmImm (.mem ⟨.direct 1000, .word⟩) (.short 0xFE)) "add word [1000], word 65534" 5 := by
  decide

theorem test_decode_addAccImm :
    reads [0x04, 0x09] (.addAccImm (.byte 9)) "add al, byte 9" 2 ∧
    reads [0x05, 0xE8, 0x03] (.addAccImm (.word 1000)) "add ax, word 1000" 3 := by
  decide

theorem test_decode_subRmReg :
    reads [0x29, 0xD9] (.subRmReg (.reg (.word .cx)) (.word .bx)) "sub cx, bx" 2 := by
  decide

theorem test_decode_subRegRm :
    reads [0x2A, 0xC3] (.subRegRm (.byte .al) (.reg (.byte .bl))) "sub al, bl" 2 := by
  decide

theorem test_decode_subRmImm :
    reads [0x83, 0xE9, 0x01] (.subRmImm (.reg (.word .cx)) (.short 1)) "sub cx, word 1" 3 ∧
    reads [0x80, 0xEC, 0x01] (.subRmImm (.reg (.byte .ah)) (.byte false 1)) "sub ah, byte 1" 3 := by
  decide

theorem test_decode_subAccImm :
    reads [0x2D, 0x01, 0x00] (.subAccImm (.word 1)) "sub ax, word 1" 3 ∧
    reads [0x2C, 0x80] (.subAccImm (.byte 128)) "sub al, byte 128" 2 := by
  decide

theorem test_decode_cmpRmReg :
    reads [0x39, 0xD6] (.cmpRmReg (.reg (.word .si)) (.word .dx)) "cmp si, dx" 2 := by
  decide

theorem test_decode_cmpRegRm :
    reads [0x3A, 0xE0] (.cmpRegRm (.byte .ah) (.reg (.byte .al))) "cmp ah, al" 2 ∧
    reads [0x3B, 0x07] (.cmpRegRm (.word .ax) (.mem ⟨.based .bx .none, .word⟩)) "cmp ax, word [bx]" 2 := by
  decide

theorem test_decode_cmpRmImm :
    reads [0x83, 0xF9, 0x00] (.cmpRmImm (.reg (.word .cx)) (.short 0)) "cmp cx, word 0" 3 ∧
    reads [0x81, 0xFB, 0x00, 0x01] (.cmpRmImm (.reg (.word .bx)) (.word 256)) "cmp bx, word 256" 4 ∧
    reads [0x80, 0x3E, 0x10, 0x00, 0x07] (.cmpRmImm (.mem ⟨.direct 16, .byte⟩) (.byte false 7)) "cmp byte [16], byte 7" 5 := by
  decide

theorem test_decode_cmpAccImm :
    reads [0x3C, 0x80] (.cmpAccImm (.byte 128)) "cmp al, byte 128" 2 ∧
    reads [0x3D, 0xFF, 0xFF] (.cmpAccImm (.word 65535)) "cmp ax, word 65535" 3 := by
  decide

/-- D60 to D68. -/
theorem test_decode_jumps :
    reads [0x75, 0xF8] (.jne 0xF8) "jne -8" 2 ∧
    reads [0x74, 0x04] (.je 0x04) "je +4" 2 ∧
    reads [0x77, 0x80] (.ja 0x80) "ja -128" 2 ∧
    reads [0x76, 0x7F] (.jbe 0x7F) "jbe +127" 2 ∧
    reads [0x70, 0x02] (.jo 0x02) "jo +2" 2 ∧
    reads [0x71, 0x02] (.jno 0x02) "jno +2" 2 ∧
    reads [0x72, 0x02] (.jb 0x02) "jb +2" 2 ∧
    reads [0x73, 0x02] (.jnb 0x02) "jnb +2" 2 ∧
    reads [0x78, 0x02] (.js 0x02) "js +2" 2 ∧
    reads [0x79, 0x02] (.jns 0x02) "jns +2" 2 ∧
    reads [0x7A, 0x02] (.jp 0x02) "jp +2" 2 ∧
    reads [0x7B, 0x02] (.jnp 0x02) "jnp +2" 2 ∧
    reads [0x7C, 0xFA] (.jl 0xFA) "jl -6" 2 ∧
    reads [0x7D, 0xFA] (.jge 0xFA) "jge -6" 2 ∧
    reads [0x7E, 0xFA] (.jle 0xFA) "jle -6" 2 ∧
    reads [0x7F, 0xFA] (.jg 0xFA) "jg -6" 2 ∧
    reads [0xE0, 0xFC] (.loopnz 0xFC) "loopnz -4" 2 ∧
    reads [0xE1, 0xFC] (.loopz 0xFC) "loopz -4" 2 ∧
    reads [0xE2, 0xFC] (.loop 0xFC) "loop -4" 2 ∧
    reads [0xE3, 0x05] (.jcxz 0x05) "jcxz +5" 2 := by
  decide

/-- D20, D55 to D59 and section 2.4. -/
theorem test_unsupported :
    refuses [0xC7, 0x08, 0x00, 0x00] ∧
    refuses [0x80, 0xC8, 0x01] ∧
    refuses [0x83, 0xD0, 0x01] ∧
    refuses [0x83, 0xD8, 0x00] ∧
    refuses [0x83, 0xE0, 0x0F] ∧
    refuses [0x83, 0xF0, 0x01] ∧
    refuses [0x90] ∧
    refuses [0xC3] ∧
    refuses [0xCD, 0x21] ∧
    refuses [0x26, 0x8B, 0x07] ∧
    refuses [0x8E, 0xD8] ∧
    refuses [0x87] ∧
    refuses [0x8C] ∧
    refuses [0x9F] ∧
    refuses [0xA4] ∧
    refuses [0xAF] ∧
    refuses [0xC0] ∧
    refuses [0xC5] ∧
    refuses [0xC8] ∧
    refuses [0x6F] ∧
    refuses [0x84] ∧
    refuses [0xDF] ∧
    refuses [0xE4] ∧
    refuses [0x06] ∧
    refuses [0x27] ∧
    refuses [0x2E] ∧
    refuses [0x37] ∧
    refuses [0x3E] ∧
    refuses [0xFF] := by
  decide

/-- The numbering of spec/opcode_table.json: the first 16 bits are `(win[0] << 8) | win[1]` (R118). -/
theorem test_table_word :
    decodeTableWord 16 0x89D9 = some (.movRmReg (.reg (.word .cx)) (.word .bx)) ∧
    decodeTableWord 24 0x12B834 = some (.movRegImm (.word .ax) (.word 0x1234)) ∧
    decodeTableWord 16 0x9000 = none := by
  decide

/-! ## Steps -/

/-- The state with this image, these registers, flags and memory, pc at 0, running. -/
def start (image : List Byte) (regs : RegFile) (flags : Word) (mem : Memory) : State :=
  ⟨regs, 0, flags, mem, .running, image⟩

/-- One step from `s` gives exactly the state with these registers, pc, flags, memory and status. -/
def gives (s : State) (regs : RegFile) (pc flags : Word) (mem : Memory) (status : RunStatus) : Bool :=
  match step s with
  | .next t    => t == ⟨regs, pc, flags, mem, status, s.image⟩
  | .fault _   => false
  | .refused _ => false

/-- `gives` with the status still Running. -/
def runs (s : State) (regs : RegFile) (pc flags : Word) (mem : Memory) : Bool := gives s regs pc flags mem .running

/-- X3; M5, M4. -/
theorem test_movRmReg :
    runs (start [0x88, 0xC4] ⟨0xABCD, 0, 0, 0, 0, 0, 0, 0⟩ 0x0 []) ⟨0xCDCD, 0, 0, 0, 0, 0, 0, 0⟩ 2 0x0 [] := by
  decide

/-- M5, M4. -/
theorem test_movRmReg_store :
    runs (start [0x88, 0x65, 0xFF] ⟨0xBEEF, 0, 0, 0, 0, 0, 0, 0x20⟩ 0xC0 []) ⟨0xBEEF, 0, 0, 0, 0, 0, 0, 0x20⟩ 3 0xC0 [(0x1F, 0xBE)] ∧
    runs (start [0x89, 0x1F] ⟨0, 0, 0, 0x10, 0, 0, 0, 0⟩ 0x0 []) ⟨0, 0, 0, 0x10, 0, 0, 0, 0⟩ 2 0x0 [(0x10, 0x10)] := by
  decide

/-- M1, M3, M13: the address wraps, and is that of the old registers. -/
theorem test_movRegRm :
    runs (start [0x8B, 0x00] ⟨0, 0, 0, 0xFFFF, 0, 0, 0x2, 0⟩ 0x0 [(0x1, 0xCD), (0x2, 0xAB)]) ⟨0xABCD, 0, 0, 0xFFFF, 0, 0, 0x2, 0⟩ 2 0x0 [(0x1, 0xCD), (0x2, 0xAB)] ∧
    runs (start [0x8B, 0x18] ⟨0, 0, 0, 0x100, 0, 0, 0x100, 0⟩ 0x40 [(0x200, 0xEF), (0x201, 0xBE)]) ⟨0, 0, 0, 0xBEEF, 0, 0, 0x100, 0⟩ 2 0x40 [(0x200, 0xEF), (0x201, 0xBE)] ∧
    runs (start [0x8B, 0x81, 0x00, 0x80] ⟨0, 0, 0, 0x8000, 0, 0, 0, 0x4⟩ 0x0 [(0x4, 0x11), (0x5, 0x22)]) ⟨0x2211, 0, 0, 0x8000, 0, 0, 0, 0x4⟩ 4 0x0 [(0x4, 0x11), (0x5, 0x22)] := by
  decide

/-- M2, X5. -/
theorem test_movRegRm_bp :
    runs (start [0x8B, 0x46, 0xFC] ⟨0, 0, 0, 0, 0, 0x2, 0, 0⟩ 0x0 [(0xFFFE, 0x78), (0xFFFF, 0x56)]) ⟨0x5678, 0, 0, 0, 0, 0x2, 0, 0⟩ 3 0x0 [(0xFFFE, 0x78), (0xFFFF, 0x56)] ∧
    runs (start [0x88, 0xE3] ⟨0x5634, 0, 0, 0, 0, 0, 0, 0⟩ 0x0 []) ⟨0x5634, 0, 0, 0x56, 0, 0, 0, 0⟩ 2 0x0 [] := by
  decide

/-- M12, M11. -/
theorem test_movRmImm :
    runs (start [0xC6, 0x47, 0x05, 0xFF] ⟨0, 0, 0, 0x100, 0, 0, 0, 0⟩ 0x0 []) ⟨0, 0, 0, 0x100, 0, 0, 0, 0⟩ 4 0x0 [(0x105, 0xFF)] ∧
    runs (start [0xC7, 0x06, 0x00, 0x01, 0x34, 0x12] .reset 0x0 []) .reset 6 0x0 [(0x100, 0x34), (0x101, 0x12)] := by
  decide

/-- X1, X2: the sibling half stays. -/
theorem test_movRegImm :
    runs (start [0xB0, 0x34] ⟨0x1200, 0, 0, 0, 0, 0, 0, 0⟩ 0x0 []) ⟨0x1234, 0, 0, 0, 0, 0, 0, 0⟩ 2 0x0 [] ∧
    runs (start [0xB4, 0x12] ⟨0x34, 0, 0, 0, 0, 0, 0, 0⟩ 0x0 []) ⟨0x1234, 0, 0, 0, 0, 0, 0, 0⟩ 2 0x0 [] := by
  decide

/-- M8, M10. -/
theorem test_movAccMem :
    runs (start [0xA0, 0xFF, 0xFF] .reset 0x0 [(0xFFFF, 0x99)]) ⟨0x99, 0, 0, 0, 0, 0, 0, 0⟩ 3 0x0 [(0xFFFF, 0x99)] ∧
    gives (start [0xA1, 0xFF, 0xFF] .reset 0x0 []) .reset 3 0x0 [] (.faulted (.outOfBounds 0xFFFF)) := by
  decide

/-- M6, M7, M9. -/
theorem test_movMemAcc :
    runs (start [0xA3, 0xFE, 0xFF] ⟨0xBEEF, 0, 0, 0, 0, 0, 0, 0⟩ 0x0 []) ⟨0xBEEF, 0, 0, 0, 0, 0, 0, 0⟩ 3 0x0 [(0xFFFE, 0xEF), (0xFFFF, 0xBE)] ∧
    runs (start [0xA2, 0xFF, 0xFF] ⟨0xBEEF, 0, 0, 0, 0, 0, 0, 0⟩ 0x0 []) ⟨0xBEEF, 0, 0, 0, 0, 0, 0, 0⟩ 3 0x0 [(0xFFFF, 0xEF)] ∧
    gives (start [0xA3, 0xFF, 0xFF] ⟨0xBEEF, 0, 0, 0, 0, 0, 0, 0⟩ 0x0 []) ⟨0xBEEF, 0, 0, 0, 0, 0, 0, 0⟩ 3 0x0 [] (.faulted (.outOfBounds 0xFFFF)) := by
  decide

/-- A1, A24. -/
theorem test_addRmReg :
    runs (start [0x01, 0xD8] ⟨0x1, 0, 0, 0xFFFF, 0, 0, 0, 0⟩ 0x0 []) ⟨0, 0, 0, 0xFFFF, 0, 0, 0, 0⟩ 2 0x40 [] ∧
    runs (start [0x01, 0xC0] ⟨0x4000, 0, 0, 0, 0, 0, 0, 0⟩ 0x0 []) ⟨0x8000, 0, 0, 0, 0, 0, 0, 0⟩ 2 0x80 [] := by
  decide

/-- A2; FV4. -/
theorem test_addRegRm :
    runs (start [0x02, 0xC4] ⟨0x7F01, 0, 0, 0, 0, 0, 0, 0⟩ 0x0 []) ⟨0x7F80, 0, 0, 0, 0, 0, 0, 0⟩ 2 0x80 [] ∧
    gives (start [0x03, 0x06, 0x00, 0x00] ⟨0x5, 0, 0, 0, 0, 0, 0, 0⟩ 0x0 []) ⟨0x5, 0, 0, 0, 0, 0, 0, 0⟩ 4 0x0 [] (.faulted (.unsupportedOperandCombination .add (some .register) (some .memory))) := by
  decide

/-- A5, A6. -/
theorem test_addRmImm :
    runs (start [0x83, 0xC3, 0xFF] .reset 0x0 []) ⟨0, 0, 0, 0xFFFF, 0, 0, 0, 0⟩ 3 0x80 [] ∧
    runs (start [0x81, 0xC1, 0x00, 0x80] ⟨0, 0x8000, 0, 0, 0, 0, 0, 0⟩ 0x0 []) .reset 4 0x40 [] := by
  decide

/-- A4, A7. -/
theorem test_addAccImm :
    runs (start [0x04, 0x01] ⟨0x12FF, 0, 0, 0, 0, 0, 0, 0⟩ 0x0 []) ⟨0x1200, 0, 0, 0, 0, 0, 0, 0⟩ 2 0x40 [] ∧
    runs (start [0x05, 0x01, 0x00] ⟨0x7FFF, 0, 0, 0, 0, 0, 0, 0⟩ 0x0 []) ⟨0x8000, 0, 0, 0, 0, 0, 0, 0⟩ 3 0x80 [] := by
  decide

/-- A10, A23. -/
theorem test_subRmReg :
    runs (start [0x29, 0xD9] ⟨0, 0x3, 0, 0x5, 0, 0, 0, 0⟩ 0x0 []) ⟨0, 0xFFFE, 0, 0x5, 0, 0, 0, 0⟩ 2 0x80 [] ∧
    runs (start [0x29, 0xC0] .reset 0x80 []) .reset 2 0x40 [] := by
  decide

/-- A11. -/
theorem test_subRegRm :
    runs (start [0x2A, 0xC3] ⟨0x5501, 0, 0, 0x2, 0, 0, 0, 0⟩ 0x0 []) ⟨0x55FF, 0, 0, 0x2, 0, 0, 0, 0⟩ 2 0x80 [] := by
  decide

/-- A12, A14. -/
theorem test_subRmImm :
    runs (start [0x80, 0xEC, 0x01] .reset 0x0 []) ⟨0xFF00, 0, 0, 0, 0, 0, 0, 0⟩ 3 0x80 [] ∧
    runs (start [0x83, 0xEB, 0xFF] ⟨0, 0, 0, 0x5, 0, 0, 0, 0⟩ 0x0 []) ⟨0, 0, 0, 0x6, 0, 0, 0, 0⟩ 3 0x0 [] := by
  decide

/-- A13. -/
theorem test_subAccImm :
    runs (start [0x2D, 0x01, 0x00] .reset 0x0 []) ⟨0xFFFF, 0, 0, 0, 0, 0, 0, 0⟩ 3 0x80 [] := by
  decide

/-- A16, A17. -/
theorem test_cmpRmReg :
    runs (start [0x39, 0xD6] ⟨0, 0, 0x6, 0, 0, 0, 0x4, 0⟩ 0x0 []) ⟨0, 0, 0x6, 0, 0, 0, 0x4, 0⟩ 2 0x80 [] ∧
    runs (start [0x39, 0xD8] ⟨0x8000, 0, 0, 0x1, 0, 0, 0, 0⟩ 0x80 []) ⟨0x8000, 0, 0, 0x1, 0, 0, 0, 0⟩ 2 0x0 [] := by
  decide

/-- A18. -/
theorem test_cmpRegRm :
    runs (start [0x3A, 0xE0] ⟨0x505, 0, 0, 0, 0, 0, 0, 0⟩ 0x0 []) ⟨0x505, 0, 0, 0, 0, 0, 0, 0⟩ 2 0x40 [] := by
  decide

/-- A22; FV10. -/
theorem test_cmpRmImm :
    runs (start [0x81, 0xFB, 0x00, 0x01] ⟨0, 0, 0, 0xFF, 0, 0, 0, 0⟩ 0x0 []) ⟨0, 0, 0, 0xFF, 0, 0, 0, 0⟩ 4 0x80 [] ∧
    gives (start [0x80, 0x3E, 0x10, 0x00, 0x07] .reset 0x0 []) .reset 5 0x0 [] (.faulted (.unsupportedOperandCombination .cmp (some .memory) (some .immediate))) := by
  decide

/-- A19, A20. -/
theorem test_cmpAccImm :
    runs (start [0x3C, 0x80] ⟨0x80, 0, 0, 0, 0, 0, 0, 0⟩ 0x0 []) ⟨0x80, 0, 0, 0, 0, 0, 0, 0⟩ 2 0x40 [] ∧
    runs (start [0x3C, 0x80] .reset 0x0 []) .reset 2 0x80 [] := by
  decide

/-- J6, J5, J8: taken with ZF clear. -/
theorem test_jne :
    runs (start [0x75, 0x80] .reset 0x0 []) .reset 65410 0x0 [] ∧
    runs (start [0x75, 0x00] .reset 0x40 []) .reset 2 0x40 [] ∧
    runs (start [0x75, 0x05] .reset 0x0 []) .reset 7 0x0 [] := by
  decide

/-- J2: not taken with ZF set. -/
theorem test_jne_not_taken :
    runs (start [0x75, 0xF8] .reset 0x40 []) .reset 2 0x40 [] := by
  decide

/-- FV5, FV6 and the other decode-only jumps (R163): CX, flags and pc beyond the advance stay. -/
theorem test_decode_only_jumps :
    gives (start [0x74, 0x04] ⟨0, 0x1, 0, 0, 0, 0, 0, 0⟩ 0x40 []) ⟨0, 0x1, 0, 0, 0, 0, 0, 0⟩ 2 0x40 [] (.faulted (.unsupportedOperandCombination .je (some .rel8) none)) ∧
    gives (start [0x77, 0x80] ⟨0, 0x1, 0, 0, 0, 0, 0, 0⟩ 0x40 []) ⟨0, 0x1, 0, 0, 0, 0, 0, 0⟩ 2 0x40 [] (.faulted (.unsupportedOperandCombination .ja (some .rel8) none)) ∧
    gives (start [0x76, 0x7F] ⟨0, 0x1, 0, 0, 0, 0, 0, 0⟩ 0x40 []) ⟨0, 0x1, 0, 0, 0, 0, 0, 0⟩ 2 0x40 [] (.faulted (.unsupportedOperandCombination .jbe (some .rel8) none)) ∧
    gives (start [0x70, 0x02] ⟨0, 0x1, 0, 0, 0, 0, 0, 0⟩ 0x40 []) ⟨0, 0x1, 0, 0, 0, 0, 0, 0⟩ 2 0x40 [] (.faulted (.unsupportedOperandCombination .jo (some .rel8) none)) ∧
    gives (start [0x71, 0x02] ⟨0, 0x1, 0, 0, 0, 0, 0, 0⟩ 0x40 []) ⟨0, 0x1, 0, 0, 0, 0, 0, 0⟩ 2 0x40 [] (.faulted (.unsupportedOperandCombination .jno (some .rel8) none)) ∧
    gives (start [0x72, 0x02] ⟨0, 0x1, 0, 0, 0, 0, 0, 0⟩ 0x40 []) ⟨0, 0x1, 0, 0, 0, 0, 0, 0⟩ 2 0x40 [] (.faulted (.unsupportedOperandCombination .jb (some .rel8) none)) ∧
    gives (start [0x73, 0x02] ⟨0, 0x1, 0, 0, 0, 0, 0, 0⟩ 0x40 []) ⟨0, 0x1, 0, 0, 0, 0, 0, 0⟩ 2 0x40 [] (.faulted (.unsupportedOperandCombination .jnb (some .rel8) none)) ∧
    gives (start [0x78, 0x02] ⟨0, 0x1, 0, 0, 0, 0, 0, 0⟩ 0x40 []) ⟨0, 0x1, 0, 0, 0, 0, 0, 0⟩ 2 0x40 [] (.faulted (.unsupportedOperandCombination .js (some .rel8) none)) ∧
    gives (start [0x79, 0x02] ⟨0, 0x1, 0, 0, 0, 0, 0, 0⟩ 0x40 []) ⟨0, 0x1, 0, 0, 0, 0, 0, 0⟩ 2 0x40 [] (.faulted (.unsupportedOperandCombination .jns (some .rel8) none)) ∧
    gives (start [0x7A, 0x02] ⟨0, 0x1, 0, 0, 0, 0, 0, 0⟩ 0x40 []) ⟨0, 0x1, 0, 0, 0, 0, 0, 0⟩ 2 0x40 [] (.faulted (.unsupportedOperandCombination .jp (some .rel8) none)) ∧
    gives (start [0x7B, 0x02] ⟨0, 0x1, 0, 0, 0, 0, 0, 0⟩ 0x40 []) ⟨0, 0x1, 0, 0, 0, 0, 0, 0⟩ 2 0x40 [] (.faulted (.unsupportedOperandCombination .jnp (some .rel8) none)) ∧
    gives (start [0x7C, 0xFA] ⟨0, 0x1, 0, 0, 0, 0, 0, 0⟩ 0x40 []) ⟨0, 0x1, 0, 0, 0, 0, 0, 0⟩ 2 0x40 [] (.faulted (.unsupportedOperandCombination .jl (some .rel8) none)) ∧
    gives (start [0x7D, 0xFA] ⟨0, 0x1, 0, 0, 0, 0, 0, 0⟩ 0x40 []) ⟨0, 0x1, 0, 0, 0, 0, 0, 0⟩ 2 0x40 [] (.faulted (.unsupportedOperandCombination .jge (some .rel8) none)) ∧
    gives (start [0x7E, 0xFA] ⟨0, 0x1, 0, 0, 0, 0, 0, 0⟩ 0x40 []) ⟨0, 0x1, 0, 0, 0, 0, 0, 0⟩ 2 0x40 [] (.faulted (.unsupportedOperandCombination .jle (some .rel8) none)) ∧
    gives (start [0x7F, 0xFA] ⟨0, 0x1, 0, 0, 0, 0, 0, 0⟩ 0x40 []) ⟨0, 0x1, 0, 0, 0, 0, 0, 0⟩ 2 0x40 [] (.faulted (.unsupportedOperandCombination .jg (some .rel8) none)) ∧
    gives (start [0xE0, 0xFC] ⟨0, 0x1, 0, 0, 0, 0, 0, 0⟩ 0x40 []) ⟨0, 0x1, 0, 0, 0, 0, 0, 0⟩ 2 0x40 [] (.faulted (.unsupportedOperandCombination .loopnz (some .rel8) none)) ∧
    gives (start [0xE1, 0xFC] ⟨0, 0x1, 0, 0, 0, 0, 0, 0⟩ 0x40 []) ⟨0, 0x1, 0, 0, 0, 0, 0, 0⟩ 2 0x40 [] (.faulted (.unsupportedOperandCombination .loopz (some .rel8) none)) ∧
    gives (start [0xE2, 0xFC] ⟨0, 0x1, 0, 0, 0, 0, 0, 0⟩ 0x40 []) ⟨0, 0x1, 0, 0, 0, 0, 0, 0⟩ 2 0x40 [] (.faulted (.unsupportedOperandCombination .loop (some .rel8) none)) ∧
    gives (start [0xE3, 0x05] ⟨0, 0x1, 0, 0, 0, 0, 0, 0⟩ 0x40 []) ⟨0, 0x1, 0, 0, 0, 0, 0, 0⟩ 2 0x40 [] (.faulted (.unsupportedOperandCombination .jcxz (some .rel8) none)) := by
  decide

/-- FV1, FV8, FV9: F1 leaves pc. -/
theorem test_unsupported_step :
    gives (start [0x90] .reset 0 []) .reset 0 0 [] (.faulted (.unsupportedOpcode 0x90 0 0)) ∧
    gives (start [0x83, 0xE0, 0x0F] .reset 0 []) .reset 0 0 [] (.faulted (.unsupportedOpcode 0x83 0xE0 0)) ∧
    gives (start [0xC7, 0x08, 0, 0] .reset 0 []) .reset 0 0 [] (.faulted (.unsupportedOpcode 0xC7 0x08 0)) := by
  decide

/-- E1: an empty image halts at once. E2, E3: a truncated last instruction is read with zeros. -/
theorem test_end_of_image :
    gives State.reset .reset 0 0 [] .halted ∧
    runs { start [0xB8, 1, 0, 0xB8] ⟨1, 0, 0, 0, 0, 0, 0, 0⟩ 0 [] with pc := 3 } .reset 6 0 [] ∧
    gives { start [0xB8, 1, 0, 0] .reset 0 [] with pc := 3 } .reset 5 0 []
      (.faulted (.unsupportedOperandCombination .add (some .memory) (some .register))) := by
  decide

/-- The placed word runs first after reset. -/
theorem test_withFetchWord :
    runs (State.reset.withFetchWord 16 0xB834) ⟨0x34, 0, 0, 0, 0, 0, 0, 0⟩ 3 0 [] ∧
    runs (State.reset.withFetchWord 16 0x75F8) .reset 0xFFFA 0 [] := by
  decide

/-- The alternatives: D35 and A5 under `IMM_S_EXTEND = zero`, FV4 under `ARITH_MEM_SOURCE = read`, D20 under
`MOVIMM_REG_FIELD = ignored`, D27 under `ADMIT_UNNAMED_FORMS = false`, M9 under `WORD_AT_FFFF = wrap`. -/
theorem test_alternatives :
    GroupImm.toImm { config with immSExtend := .zero } (.short 0xFF) = .byte 0xFF ∧
    execDecoded { config with arithMemSource := .read }
      ((Instr.addRegRm (.word .ax) (.mem ⟨.direct 0, .word⟩)).decoded config) (start [] ⟨5, 0, 0, 0, 0, 0, 0, 0⟩ 0 []) =
        .ok (start [] ⟨5, 0, 0, 0, 0, 0, 0, 0⟩ 0 []) ∧
    decodeWith { config with movImmRegField := .ignored } (Window.ofBytes [0xC7, 0x08, 0, 0]) =
      .ok (.movRmImm (.mem ⟨.based .bxSi .none, .word⟩) (.word 0)) ∧
    decodeWith { config with admitUnnamedForms := false } (Window.ofBytes [0xA2, 0x10, 0]) =
      .error (.unsupportedOpcode 0xA2 0x10) ∧
    Memory.store { config with wordAtFFFF := .wrap } [] 0xFFFF .word 0xBEEF = .ok [(0, 0xBE), (0xFFFF, 0xEF)] := by
  decide

/-- A MOV built by hand: memory to memory, an immediate destination, two widths (R127). -/
theorem test_hand_built_mov :
    mov config (.rm (.mem ⟨.direct 0, .byte⟩)) (.rm (.mem ⟨.direct 1, .byte⟩)) State.reset =
      .error (.unsupportedOperandCombination .mov (some .memory) (some .memory)) ∧
    mov config (.imm (.byte 1)) (.rm (.reg (.byte .al))) State.reset =
      .error (.unsupportedOperandCombination .mov (some .immediate) (some .register)) ∧
    mov config (.rm (.reg (.word .ax))) (.rm (.reg (.byte .bl))) State.reset =
      .error (.unsupportedOperandCombination .mov (some .register) (some .register)) := by
  decide

/-! ## Witnesses: each statement's hypotheses can be met -/

/-- The window of `mov word [1000], word 4660`. -/
def sampleWindow : Window := Window.ofBytes [0xC7, 0x06, 0xE8, 0x03, 0x34, 0x12]

/-- A running state with a memory, ZF set, its image one `mov ax, bx`. -/
def sample : State := start [0x89, 0xD8] ⟨1, 2, 3, 0x100, 5, 6, 0xFFFF, 8⟩ 0x40 [(0x100, 0xCD), (0x101, 0xAB)]

theorem witness_DecodeOfEncodeIsIdentity :
    (Instr.movRmImm (.mem ⟨.direct 1000, .word⟩) (.word 4660)).WellFormed ∧
    (Instr.addRmImm (.reg (.byte .bh)) (.byte true 0xFF)).WellFormed := by
  decide

theorem witness_EncodeOfDecodeIsConsumedBytes :
    decode sampleWindow = .ok (.movRmImm (.mem ⟨.direct 1000, .word⟩) (.word 4660)) := by
  decide

theorem witness_FirstTwoBytesFixOperationAndLength :
    let win := Window.ofBytes [0xC7, 0x06, 1, 2, 3, 4]
    win.b0 = sampleWindow.b0 ∧ win.b1 = sampleWindow.b1 ∧ win ≠ sampleWindow ∧
    decodeWith config sampleWindow = .ok (.movRmImm (.mem ⟨.direct 1000, .word⟩) (.word 4660)) := by
  decide

theorem witness_DecoderAgreesWithTheOpcodeTable :
    decode sampleWindow = .ok (.movRmImm (.mem ⟨.direct 1000, .word⟩) (.word 4660)) ∧
    (Instr.movRmImm (.reg (.byte .al)) (.byte 0)).row.Selects sampleWindow := by
  decide

theorem witness_FirstByte82ActsAs80 :
    (Window.ofBytes [0x80, 0xC3, 5]).b0 = 0x80 ∧
    decodeWith config (Window.ofBytes [0x80, 0xC3, 5]) = .ok (.addRmImm (.reg (.byte .bl)) (.byte false 5)) := by
  decide

/-- A window for each of the five clauses, `rm` at 6 and beside it. -/
theorem witness_ModrmByteSelectsTheOperand :
    ∀ p ∈ [(([0x8B, 0xC3] : List Byte), RM.reg (.word .bx)), ([0x8B, 0x06, 0x21, 0x00], .mem ⟨.direct 33, .word⟩),
        ([0x8B, 0x05], .mem ⟨.based .di .none, .word⟩), ([0x8B, 0x07], .mem ⟨.based .bx .none, .word⟩),
        ([0x8B, 0x46, 0x80], .mem ⟨.based .bp (.d8 0x80), .word⟩),
        ([0x8B, 0x86, 0x00, 0x80], .mem ⟨.based .bp (.d16 0x8000), .word⟩)],
      ∃ r ∈ [Reg.word .ax], decode (Window.ofBytes p.1) = .ok (.movRegRm r p.2) ∧
        modrmOperand (.movRegRm r p.2) = some p.2 := by
  decide

theorem witness_DirectionBitSelectsTheDestination :
    decodeWith config (Window.ofBytes [0x89, 0xD9]) = .ok (.movRmReg (.reg (.word .cx)) (.word .bx)) ∧
    decodeWith config (Window.ofBytes [0x8B, 0xCB]) = .ok (.movRegRm (.word .cx) (.reg (.word .bx))) ∧
    modrmOperand (.movRmReg (.reg (.word .cx)) (.word .bx)) = some (.reg (.word .cx)) ∧
    modrmRegister (.movRmReg (.reg (.word .cx)) (.word .bx)) = some (.word .bx) ∧
    modrmOperand (.movRegRm (.word .cx) (.reg (.word .bx))) = some (.reg (.word .bx)) ∧
    modrmRegister (.movRegRm (.word .cx) (.reg (.word .bx))) = some (.word .cx) := by
  decide

/-- The ends of both ranges. -/
theorem witness_JumpsAlwaysDecode :
    ∀ b ∈ [(0x70 : Byte), 0x7F, 0xE0, 0xE3],
      (0x70 ≤ b.toNat ∧ b.toNat ≤ 0x7F) ∨ (0xE0 ≤ b.toNat ∧ b.toNat ≤ 0xE3) := by
  decide

theorem witness_DecodedMovPairsAreValid :
    decode sampleWindow = .ok (.movRmImm (.mem ⟨.direct 1000, .word⟩) (.word 4660)) ∧
    (Instr.movRmImm (.mem ⟨.direct 1000, .word⟩) (.word 4660)).op = .mov := by
  decide

theorem witness_RegisterNamesReadAndWriteTheirCells :
    WordReg.bx ≠ .ax ∧ (ByteReg.bl, WordReg.bx) ∈ [(ByteReg.al, WordReg.ax), (.cl, .cx), (.dl, .dx), (.bl, .bx)] ∧
    (ByteReg.bh, WordReg.bx) ∈ [(ByteReg.ah, WordReg.ax), (.ch, .cx), (.dh, .dx), (.bh, .bx)] := by
  decide

theorem witness_ByteHalvesAliasTheirParent :
    (ByteReg.bl, ByteReg.bh, WordReg.bx) ∈
      [(ByteReg.al, ByteReg.ah, WordReg.ax), (.cl, .ch, .cx), (.dl, .dh, .dx), (.bl, .bh, .bx)] := by
  decide

theorem witness_LoadAfterStore :
    sample.mem.wf ∧ sample.mem.store config 0xFFFE .word 0xBEEF =
      .ok [(0x100, 0xCD), (0x101, 0xAB), (0xFFFE, 0xEF), (0xFFFF, 0xBE)] ∧
    secondByte config 0xFFFE ≠ .ok 0x100 := by
  decide

theorem witness_DataWordsAreLittleEndian : sample.mem.wf ∧ (0xFFFE : Word) ≠ 0xFFFF := by decide

theorem witness_WordAccessAtTheLastOffset :
    sample.mem.wf ∧ config.wordAtFFFF = .fault ∧ { config with wordAtFFFF := .wrap }.wordAtFFFF = .wrap ∧
    { config with wordAtFFFF := .spill }.wordAtFFFF = .spill := by
  decide

theorem witness_CanonicalMemoriesThatReadAlikeAreEqual :
    sample.mem.wf ∧ (Memory.write (Memory.write [] 0x101 0xAB) 0x100 0xCD).wf ∧
    ∀ a, sample.mem.read a = (Memory.write (Memory.write [] 0x101 0xAB) 0x100 0xCD).read a :=
  ⟨by decide, by decide, fun _ => rfl⟩

/-- The largest result of each width. -/
theorem witness_FlagUpdateFollowsTheTruncatedResult :
    (0xFF : Word).toNat < 2 ^ widthBits .byte ∧ (0xFFFF : Word).toNat < 2 ^ widthBits .word ∧
    sample.flags &&& 0xFF3F = 0 := by
  decide

theorem witness_MovToRegisterCompletes :
    (Reg.byte .ah).width = (Reg.byte .bl).width ∧ (Reg.word .ax).width = (Imm.word 1).width := by
  decide

/-- The highest offset of each width. -/
theorem witness_MovLoadCompletes :
    (Reg.word .ax).width = (⟨.based .si (.d8 0xFF), .word⟩ : MemOperand).width ∧
    InRange .word (sample.ea (.based .si (.d8 0xFF))) ∧ InRange .word 0xFFFE ∧ InRange .byte 0xFFFF := by
  decide

theorem witness_MovStoreCompletes :
    sample.mem.wf ∧ (⟨.based .si .none, .byte⟩ : MemOperand).width = (Reg.byte .ah).width ∧
    InRange .byte (sample.ea (.based .si .none)) ∧
    (⟨.based .si (.d8 0xFF), .word⟩ : MemOperand).width = (Imm.word 1).width ∧
    InRange .word (sample.ea (.based .si (.d8 0xFF))) ∧ InRange .word 0xFFFE := by
  decide

theorem witness_MovWordAtLastOffsetRaisesOutOfBounds :
    (⟨.based .si .none, .word⟩ : MemOperand).width = .word ∧ (Reg.word .ax).width = .word ∧
    (Imm.word 1).width = .word ∧ sample.ea (.based .si .none) = 0xFFFF := by
  decide

/-- Memory to memory; an immediate destination; a word register from a byte register; an absent source, an absent
destination. -/
theorem witness_HandBuiltInvalidMovPairsRaise :
    let memory : Option Operand := some (.rm (.mem ⟨.direct 0, .byte⟩))
    let ax : Option Operand := some (.rm (.reg (.word .ax)))
    let bl : Option Operand := some (.rm (.reg (.byte .bl)))
    ∀ p ∈ [(memory, memory), (some (.imm (.byte 1)), bl), (ax, bl), (ax, none), (none, ax)],
      ¬(movKindsValid (p.1.map kindOf) (p.2.map kindOf) = true ∧ p.1.bind opWidth = p.2.bind opWidth) := by
  decide

/-- Both parameter values; a load that faults and one that does not. -/
theorem witness_ArithAdmissionTable :
    config.arithMemSource = .fault ∧ { config with arithMemSource := .read }.arithMemSource = .read ∧
    sample.mem.load { config with arithMemSource := .read } (sample.ea (.based .si .none)) .word =
      .error (.outOfBounds 0xFFFF) ∧
    sample.mem.load { config with arithMemSource := .read } (sample.ea (.based .bx .none)) .word = .ok 0xABCD := by
  decide

theorem witness_SubOfARegisterFromItselfIsZero :
    Instr.subRegRm (.byte .ah) (.reg (.byte .ah)) ∈
      [Instr.subRmReg (.reg (.byte .ah)) (.byte .ah), .subRegRm (.byte .ah) (.reg (.byte .ah))] := by
  decide

theorem witness_CmpSetsZeroFlagExactlyOnEqual :
    (Reg.word .ax).width = (Reg.word .sp).width ∧
    (start [] ⟨5, 0, 0, 0, 5, 0, 0, 0⟩ 0 []).regRead (.word .ax) =
      (start [] ⟨5, 0, 0, 0, 5, 0, 0, 0⟩ 0 []).regRead (.word .sp) := by
  decide

theorem witness_JneJumpsExactlyWhenZeroFlagClear : State.reset.zf = false ∧ sample.zf = true := by decide

/-- An ADD that changes the flags; a JNE and another instruction with other flags; an ADD that does not fault; a halted
state. -/
theorem witness_FlagsAreWrittenByArithAndReadByJneOnly :
    (∃ t, exec (.addRmReg (.reg (.word .ax)) (.word .bx)) sample = .next t ∧ t.flags ≠ sample.flags ∧
      t.status = .running) ∧
    ((Instr.jne 0).op = .jne ∧ (0xFFFF : Word).getLsbD zfBit = sample.zf) ∧ (Instr.jo 0).op ≠ .jne ∧
    { sample with status := .halted }.status = .halted :=
  ⟨⟨_, rfl, by decide, by decide⟩, by decide, by decide, rfl⟩

theorem witness_OnlyMovStoresChangeMemory :
    sample.mem.wf ∧ storesTo (.movRegRm (.word .ax) (.mem ⟨.direct 0, .word⟩)) = none ∧
    (∃ t, exec (.movMemAcc 0x100 .word) sample = .next t) ∧ storesTo (.movMemAcc 0x100 .word) = some ⟨.direct 0x100, .word⟩ ∧
    0x102 ≠ (sample.ea (.direct 0x100)).toNat ∧
    ¬((⟨.direct 0x100, .word⟩ : MemOperand).width = .word ∧ 0x102 = (sample.ea (.direct 0x100)).toNat + 1) ∧
    (∃ t, exec (.movMemAcc 0xFFFF .word) sample = .next t) ∧
    storesTo (.movMemAcc 0xFFFF .word) = some ⟨.direct 0xFFFF, .word⟩ ∧ sample.ea (.direct 0xFFFF) = 0xFFFF :=
  ⟨by decide, by decide, ⟨_, rfl⟩, by decide, by decide, by decide, ⟨_, rfl⟩, by decide, by decide⟩

theorem witness_OnlyMovLoadsReadMemory :
    loadsFrom (.addRegRm (.word .ax) (.mem ⟨.direct 0, .word⟩)) = none ∧ loadsFrom (.movMemAcc 0 .word) = none := by
  decide

theorem witness_OnlyJneWritesPc :
    (∃ t, exec (.loop 0xFE) sample = .next t) ∧ (Instr.loop 0xFE).op ≠ .jne := ⟨⟨_, rfl⟩, by decide⟩

theorem witness_StepRunsTheDecodedInstruction :
    sample.status = .running ∧ sample.progLen ≤ maxProgLen ∧ sample.pc.toNat < sample.progLen ∧
    decode (fetch sample.image sample.pc) = .ok (.movRmReg (.reg (.word .ax)) (.word .bx)) := by
  decide

/-- The last index of an image of one byte. -/
theorem witness_StepOnUnsupportedOpcodeLeavesPc :
    (start [0x90] .reset 0 []).status = .running ∧ (start [0x90] .reset 0 []).progLen ≤ maxProgLen ∧
    (start [0x90] .reset 0 []).pc.toNat < (start [0x90] .reset 0 []).progLen ∧
    decode (fetch (start [0x90] .reset 0 []).image (start [0x90] .reset 0 []).pc) = .error (.unsupportedOpcode 0x90 0) := by
  decide

/-- pc at the end of the image exactly; a step that halts. -/
theorem witness_RunHaltsExactlyAtTheEndOfTheImage :
    { sample with pc := 2 }.status = .running ∧ { sample with pc := 2 }.progLen ≤ maxProgLen ∧
    { sample with pc := 2 }.progLen ≤ { sample with pc := 2 }.pc.toNat ∧
    step { sample with pc := 2 } = .next { sample with pc := 2, status := .halted } :=
  ⟨by decide, by decide, by decide, rfl⟩

theorem witness_HaltedAndFaultedAreAbsorbing :
    { sample with status := .halted }.status = .halted ∧
    { sample with status := .faulted (.outOfBounds 0xFFFF) }.IsFaulted := ⟨rfl, _, rfl⟩

/-- A running state with an image of `n` zero bytes. -/
def zeroImage (n : Nat) : State := { State.reset with image := List.replicate n 0 }

theorem zeroImage_progLen (n : Nat) : (zeroImage n).image.length = n := List.length_replicate

/-- The shortest image refused and the longest that boots. -/
theorem witness_OverlongImagesAreRefused :
    (zeroImage 65536).status = .running ∧ maxProgLen < (zeroImage 65536).progLen ∧
    maxProgLen < (zeroImage 65536).image.length ∧ (zeroImage 65535).image.length ≤ maxProgLen := by
  rw [State.progLen, zeroImage_progLen, zeroImage_progLen]
  decide

/-- The last byte of the image and the first beyond it. -/
theorem witness_FetchIsZeroFilled :
    5 < windowLen ∧ sample.pc.toNat + 1 < sample.image.length ∧ ¬sample.pc.toNat + 2 < sample.image.length := by
  decide

theorem witness_StepIsTotal : sample.progLen ≤ maxProgLen := by decide

/-- F1, F2 and F3. -/
theorem witness_FaultsArePrecise :
    step (start [0x90] .reset 0 []) = .next ((start [0x90] .reset 0 []).raise (.unsupportedOpcode 0x90 0 0)) ∧
    step (start [0xE2, 0xFE] .reset 0 []) = .next
      (((start [0xE2, 0xFE] .reset 0 []).advance 2).raise (.unsupportedOperandCombination .loop (some .rel8) none)) ∧
    step (start [0xA1, 0xFF, 0xFF] .reset 0 []) = .next
      (((start [0xA1, 0xFF, 0xFF] .reset 0 []).advance 3).raise (.outOfBounds 0xFFFF)) := ⟨rfl, rfl, rfl⟩

theorem witness_StepKeepsTheInvariant : sample.Inv ∧ ∃ t, step sample = .next t := ⟨by decide, _, rfl⟩

/-- Where pc stays, at its last value, and where it is set to 0. -/
theorem witness_PlacedWordIsTheNextInstruction :
    decodeTableWord 16 0x89D9 = some (.movRmReg (.reg (.word .cx)) (.word .bx)) ∧
    ({ State.reset with pc := 65529 }.withFetchBytes [1]).pc = 65529 ∧
    ({ State.reset with pc := 65530 }.withFetchBytes [1]).pc = 0 := by
  refine ⟨by decide, rfl, rfl⟩

theorem witness_OutputIsReadableExactlyWhenHalted :
    { sample with status := .halted }.status = .halted ∧ sample.status ≠ .halted := by
  decide

end Sys2Proof.Tests
end

section
/-! PROOFS. The statements of the family 10_state.md: the registers (R24 to R26), the flags (R34), memory after reset
(R44). -/

namespace Sys2Proof.Machine

/-! ## The cells behind the register names (R24, R25) -/

theorem RegFile.get_write_word (x : RegFile) (r q : WordReg) (v : Word) :
    (x.write (.word r) v).get q = if q = r then v else x.get q :=
  RegFile.get_set x r q v

theorem RegFile.get_write_byte_other (x : RegFile) (b : ByteReg) (v : Word) {q : WordReg} (h : q ≠ byteParent b) :
    (x.write (.byte b) v).get q = x.get q := by
  simp [RegFile.write, RegFile.get_set, h]

theorem RegFile.read_low_toNat (x : RegFile) {b : ByteReg} (h : byteIsHigh b = false) :
    (x.read (.byte b)).toNat = (x.get (byteParent b)).toNat % 256 := by
  simp [RegFile.read, h, zext8_toNat, loByte_toNat]

theorem RegFile.read_high_toNat (x : RegFile) {b : ByteReg} (h : byteIsHigh b = true) :
    (x.read (.byte b)).toNat = (x.get (byteParent b)).toNat / 256 := by
  simp [RegFile.read, h, zext8_toNat, hiByte_toNat]

theorem RegFile.get_write_low_toNat (x : RegFile) {b : ByteReg} (v : Word) (h : byteIsHigh b = false) :
    ((x.write (.byte b) v).get (byteParent b)).toNat =
      (x.get (byteParent b)).toNat / 256 * 256 + v.toNat % 256 := by
  simp [RegFile.write, RegFile.get_set, h, joinBytes_toNat, hiByte_toNat, loByte_toNat]

theorem RegFile.get_write_high_toNat (x : RegFile) {b : ByteReg} (v : Word) (h : byteIsHigh b = true) :
    ((x.write (.byte b) v).get (byteParent b)).toNat =
      v.toNat % 256 * 256 + (x.get (byteParent b)).toNat % 256 := by
  simp [RegFile.write, RegFile.get_set, h, joinBytes_toNat, loByte_toNat]

/-! ## The four shapes of an execution -/

/-- How `exec` runs `i` from every state, its operands being those of the decoded record: MOV, an ALU operation, JNE, or
the fault of a decode-only jump. Where `exec_effect` says what one run can give, this compares runs of one instruction
from several states. -/
inductive ExecShape (i : Instr) : Prop where
  | mov (dst src : Operand) (op_eq : i.op = .mov) (operands : i.operands config = (some dst, some src))
      (run : ∀ s, exec i s = s.settle (mov config dst src s))
  | arith (op : ArithOp) (dst src : Operand) (op_eq : i.op = arithTag op)
      (operands : i.operands config = (some dst, some src))
      (run : ∀ s, exec i s = s.settle (arith config op dst src s))
  | jne (rel : Byte) (eq : i = .jne rel)
  | decodeOnly (rel : Byte) (op_ne : i.op ∉ [OpTag.mov, .add, .sub, .cmp, .jne])
      (operands : i.operands config = (some (.rel8 rel), none))
      (run : ∀ s, exec i s = s.settle (decodeOnly i.op rel))

theorem exec_shape (i : Instr) : ExecShape i := by
  cases i
  case movRmReg | movRegRm | movRmImm | movRegImm | movAccMem | movMemAcc => exact .mov _ _ rfl rfl fun _ => rfl
  case addRmReg | addRegRm | addRmImm | addAccImm => exact .arith .add _ _ rfl rfl fun _ => rfl
  case subRmReg | subRegRm | subRmImm | subAccImm => exact .arith .sub _ _ rfl rfl fun _ => rfl
  case cmpRmReg | cmpRegRm | cmpRmImm | cmpAccImm => exact .arith .cmp _ _ rfl rfl fun _ => rfl
  case jne rel => exact .jne rel rfl
  all_goals exact .decodeOnly _ (by simp [Instr.op]) rfl fun _ => rfl

/-! ## Running from a state with another flags word (R34) -/

/-- `s` with the flags word `f`. -/
def State.withFlags (s : State) (f : Word) : State := { s with flags := f }

/-- `f` with ZF and SF as they stand in `t`: the flags word after an ALU operation that ended in `t`, had it begun with
`f`. -/
def State.flagsOver (t : State) (f : Word) : Word := withBit (withBit f zfBit t.zf) sfBit t.sf

theorem State.zf_withFlags_flagsOver (t : State) (f : Word) : (t.withFlags (t.flagsOver f)).zf = t.zf := by
  show (withBit (withBit f zfBit t.zf) sfBit t.sf).getLsbD zfBit = t.zf
  rw [getLsbD_withBit, if_neg (by decide), getLsbD_withBit, if_pos (by decide)]

theorem State.sf_withFlags_flagsOver (t : State) (f : Word) : (t.withFlags (t.flagsOver f)).sf = t.sf := by
  show (withBit (withBit f zfBit t.zf) sfBit t.sf).getLsbD sfBit = t.sf
  rw [getLsbD_withBit, if_pos (by decide)]

@[simp] theorem State.withFlags_mem (s : State) (f : Word) : (s.withFlags f).mem = s.mem := rfl

@[simp] theorem State.ea_withFlags (s : State) (f : Word) (m : MemRef) : (s.withFlags f).ea m = s.ea m := by
  cases m <;> rfl

@[simp] theorem State.operandRead_withFlags (c : Config) (s : State) (f : Word) (o : Operand) :
    (s.withFlags f).operandRead c o = s.operandRead c o := by
  rcases o with (_ | m) | _ | _
  case rm.mem => simp only [State.operandRead_mem, State.ea_withFlags, State.withFlags_mem]
  all_goals rfl

theorem State.operandWrite_withFlags (c : Config) (s : State) (f : Word) (d : RM) (v : Word) :
    (s.withFlags f).operandWrite c d v = (s.operandWrite c d v).map (·.withFlags f) := by
  cases d with
  | reg r => rfl
  | mem m =>
    simp only [State.operandWrite, State.ea_withFlags, State.withFlags_mem]
    cases s.mem.store c (s.ea m.ref) m.width v <;> rfl

/-- MOV reads and writes no flag: it ends alike, with the other flags word still in place. -/
theorem mov_withFlags (c : Config) (dst src : Operand) (s : State) (f : Word) :
    mov c dst src (s.withFlags f) = (mov c dst src s).map (·.withFlags f) := by
  simp only [mov, State.operandRead_withFlags]
  cases movTarget dst src with
  | none => rfl
  | some d =>
    cases s.operandRead c src with
    | error e => rfl
    | ok v => exact State.operandWrite_withFlags c s f d v

theorem State.computed_withFlags (s : State) (f : Word) (op : ArithOp) (d : Reg) (b : Word) :
    (s.withFlags f).computed op d b = (s.computed op d b).withFlags ((s.computed op d b).flagsOver f) := by
  have zf : (s.computed op d b).zf = (alu op (s.regRead d) b d.width == 0) := State.setFlags_zf ..
  have sf : (s.computed op d b).sf = (alu op (s.regRead d) b d.width).getLsbD (widthBits d.width - 1) :=
    State.setFlags_sf ..
  rw [State.flagsOver, zf, sf]
  cases op <;> rfl

/-- An ALU operation reads no flag, and writes ZF and SF from its result alone. -/
theorem arith_withFlags (c : Config) (op : ArithOp) (dst src : Operand) (s : State) (f : Word) :
    arith c op dst src (s.withFlags f) = (arith c op dst src s).map fun t => t.withFlags (t.flagsOver f) := by
  simp only [arith, State.operandRead_withFlags]
  split
  · next r _ =>
    cases s.operandRead c src with
    | error e => rfl
    | ok b => exact congrArg Except.ok (State.computed_withFlags s f op r b)
  · rfl

/-- JNE reads ZF and no other bit. -/
theorem jumpNotEqual_withFlags (rel : Byte) {s : State} {f : Word} (h : f.getLsbD zfBit = s.zf) :
    jumpNotEqual rel (s.withFlags f) = (jumpNotEqual rel s).withFlags f := by
  have zf : (s.withFlags f).zf = s.zf := h
  unfold jumpNotEqual
  rw [zf]
  split <;> rfl

@[simp] theorem jumpNotEqual_flags (rel : Byte) (s : State) : (jumpNotEqual rel s).flags = s.flags := by
  unfold jumpNotEqual; split <;> rfl

/-- Settling two results that differ by the flags word `g` of their end alone; a fault is raised on the state before, so
there `f` stays. -/
theorem State.settle_withFlags (s : State) (f : Word) (x : Result) (g : State → Word) :
    ∃ t k, s.settle x = .next t ∧ (s.withFlags f).settle (x.map fun t => t.withFlags (g t)) = .next (t.withFlags k) ∧
      (t.IsFaulted ∨ k = g t) := by
  cases x with
  | error e => exact ⟨s.raise e, f, rfl, rfl, .inl ⟨e, rfl⟩⟩
  | ok t => exact ⟨t, g t, rfl, rfl, .inr rfl⟩

/-- From a state with another flags word (JNE: with the same ZF) every instruction ends alike but for the flags word, and
ADD, SUB and CMP, where they do not fault, with the same ZF and SF. -/
theorem exec_withFlags (i : Instr) (s : State) (f : Word) (h : i.op = .jne → f.getLsbD zfBit = s.zf) :
    ∃ t k, exec i s = .next t ∧ exec i (s.withFlags f) = .next (t.withFlags k) ∧
      (i.op ∈ [OpTag.add, .sub, .cmp] → t.IsFaulted ∨ k = t.flagsOver f) := by
  cases exec_shape i with
  | mov dst src hop _ run =>
    obtain ⟨t, k, ht, ht', _⟩ := s.settle_withFlags f (mov config dst src s) fun _ => f
    refine ⟨t, k, (run s).trans ht, ?_, by simp [hop]⟩
    rw [run, mov_withFlags, ht']
  | arith op dst src _ _ run =>
    obtain ⟨t, k, ht, ht', hk⟩ := s.settle_withFlags f (arith config op dst src s) fun t => t.flagsOver f
    refine ⟨t, k, (run s).trans ht, ?_, fun _ => hk⟩
    rw [run, arith_withFlags, ht']
  | jne rel eq =>
    subst eq
    refine ⟨jumpNotEqual rel s, f, rfl, ?_, by simp [Instr.op]⟩
    exact congrArg Host.Outcome.next (jumpNotEqual_withFlags rel (h rfl))
  | decodeOnly rel _ _ run =>
    exact ⟨_, f, run s, run (s.withFlags f), fun _ => .inl ⟨_, rfl⟩⟩

/-- The writers of R34: among the effects of an execution only an ALU result touches the flags word. -/
theorem op_of_exec_flags_ne {i : Instr} {s t : State} (h : exec i s = .next t) (hf : t.flags ≠ s.flags) :
    i.op ∈ [OpTag.add, .sub, .cmp] := by
  rcases exec_effect i s with ⟨d, v, _, hx⟩ | ⟨m, v, mem, _, _, hx⟩ | ⟨op, d, b, hop, _⟩ | ⟨rel, _, hx⟩ | ⟨e, hx, _⟩
  case inr.inr.inl => rw [hop]; cases op <;> decide
  all_goals
    cases h.symm.trans hx
    simp at hf

/-! ## The obligations -/

/-- Settles O37: the writers by the effects of an execution, the readers by running it from another flags word. -/
theorem flagsAreWrittenByArithAndReadByJneOnly : Obligations.FlagsAreWrittenByArithAndReadByJneOnly := by
  refine ⟨fun i s t => op_of_exec_flags_ne, fun i s f h => ?_, State.advance_flags, fun s h => ?_⟩
  · obtain ⟨t, k, ht, ht', flags⟩ := exec_withFlags i s f h
    refine ⟨t, t.withFlags k, ht, ht', rfl, rfl, rfl, rfl, rfl, fun hop hrun => ?_⟩
    obtain rfl := (flags hop).resolve_left hrun
    exact ⟨State.zf_withFlags_flagsOver t f, State.sf_withFlags_flagsOver t f⟩
  · exact ⟨⟨s.regs, s.flags, s.pc, s.mem⟩, by rw [State.output, h], rfl⟩

/-- Settles O15: each table of byte names is one half of its parents, so the laws of that half give its clause. -/
theorem registerNamesReadAndWriteTheirCells : Obligations.RegisterNamesReadAndWriteTheirCells := by
  intro s v
  refine ⟨fun r => ⟨rfl, ?_, fun q hq => ?_⟩, fun p hp => ?_, fun p hp => ?_, fun r => ⟨rfl, rfl, rfl, rfl, rfl⟩⟩
  · exact (RegFile.get_write_word ..).trans (if_pos rfl)
  · exact (RegFile.get_write_word ..).trans (if_neg hq)
  · obtain ⟨low, parent⟩ : byteIsHigh p.1 = false ∧ byteParent p.1 = p.2 := by revert p; decide
    rw [← parent]
    exact ⟨RegFile.read_low_toNat _ low, RegFile.get_write_low_toNat _ v low,
      fun q hq => RegFile.get_write_byte_other _ _ v hq⟩
  · obtain ⟨high, parent⟩ : byteIsHigh p.1 = true ∧ byteParent p.1 = p.2 := by revert p; decide
    rw [← parent]
    exact ⟨RegFile.read_high_toNat _ high, RegFile.get_write_high_toNat _ v high,
      fun q hq => RegFile.get_write_byte_other _ _ v hq⟩

/-- Settles O16: the halves share no storage, and each is read from and written to its half of the parent's cell. -/
theorem byteHalvesAliasTheirParent : Obligations.ByteHalvesAliasTheirParent := by
  intro s v p hp
  obtain ⟨low, high, lowParent, highParent, apart, apart'⟩ :
      byteIsHigh p.1 = false ∧ byteIsHigh p.2.1 = true ∧ byteParent p.1 = p.2.2 ∧ byteParent p.2.1 = p.2.2 ∧
      overlaps (.byte p.1) (.byte p.2.1) = false ∧ overlaps (.byte p.2.1) (.byte p.1) = false := by
    revert p; decide
  have lowRead (x : RegFile) : (x.read (.byte p.1)).toNat = (x.get p.2.2).toNat % 256 :=
    lowParent ▸ x.read_low_toNat low
  have highRead (x : RegFile) : (x.read (.byte p.2.1)).toNat = (x.get p.2.2).toNat / 256 :=
    highParent ▸ x.read_high_toNat high
  refine ⟨⟨RegFile.read_write_other _ _ _ _ apart, ?_⟩, ⟨RegFile.read_write_other _ _ _ _ apart', ?_⟩, ?_, ?_⟩
  · rw [State.regRead_eq s, highRead]
    exact lowParent ▸ s.regs.get_write_low_toNat v low
  · rw [State.regRead_eq s, lowRead]
    exact highParent ▸ s.regs.get_write_high_toNat v high
  · rw [State.regRead_eq, lowRead, State.regWrite_regs, RegFile.get_write_word, if_pos rfl]
  · rw [State.regRead_eq, highRead, State.regWrite_regs, RegFile.get_write_word, if_pos rfl]

/-- Settles O50: reset lists no byte, and an unlisted one reads as zero. -/
theorem resetMemoryIsZero : Obligations.ResetMemoryIsZero :=
  fun _ a => ⟨Memory.read_nil a, Memory.read_nil a⟩

end Sys2Proof.Machine
end

section
/-! PROOFS. The statements of the family 20_memory.md: the effective address (R61). -/

namespace Sys2Proof.Machine

/-! ## Wrapped sums of registers and displacements (R61) -/

/-- A 16-bit sum whose second summand is read as signed. -/
theorem toNat_add_eq_toInt_emod (a b : Word) : ((a + b).toNat : Int) = (a.toNat + b.toInt) % 65536 := by
  have := b.toInt_eq_toNat_cond
  rw [BitVec.toNat_add]
  omega

theorem sext8_toInt (v : Byte) : (sext8 v).toInt = v.toInt :=
  BitVec.toInt_signExtend_of_le (by decide)

theorem dispValue_toInt (d : Disp) : (dispValue d).toInt = signedDisp d := by
  cases d with
  | none => rfl
  | d8 v => exact sext8_toInt v
  | d16 v => rfl

/-- The base registers of a mode, summed on integers: `RegFile.base` before it wraps (`RegFile.base_toNat`). -/
def RegFile.baseSum (x : RegFile) : Base → Int
  | .bxSi => x.bx.toNat + x.si.toNat
  | .bxDi => x.bx.toNat + x.di.toNat
  | .bpSi => x.bp.toNat + x.si.toNat
  | .bpDi => x.bp.toNat + x.di.toNat
  | .si   => x.si.toNat
  | .di   => x.di.toNat
  | .bp   => x.bp.toNat
  | .bx   => x.bx.toNat

theorem RegFile.base_toNat (x : RegFile) (b : Base) : ((x.base b).toNat : Int) = x.baseSum b % 65536 := by
  have two (a c : Word) : ((a + c).toNat : Int) = (a.toNat + c.toNat) % 65536 := by
    rw [BitVec.toNat_add]; rfl
  have one (a : Word) : (a.toNat : Int) = a.toNat % 65536 := by
    have := a.isLt
    omega
  cases b
  case bxSi | bxDi | bpSi | bpDi => exact two _ _
  case si | di | bp | bx => exact one _

/-- The effective address wraps once: the wrap of the base registers' own sum is absorbed. -/
theorem State.ea_based_toNat (s : State) (b : Base) (d : Disp) :
    ((s.ea (.based b d)).toNat : Int) = (s.regs.baseSum b + signedDisp d) % 65536 := by
  calc ((s.regs.base b + dispValue d).toNat : Int)
    _ = ((s.regs.base b).toNat + (dispValue d).toInt) % 65536 := toNat_add_eq_toInt_emod ..
    _ = (s.regs.baseSum b % 65536 + signedDisp d) % 65536 := by rw [RegFile.base_toNat, dispValue_toInt]
    _ = (s.regs.baseSum b + signedDisp d) % 65536 := Int.emod_add_emod ..

/-! ## The obligation -/

/-- Settles O21: `State.ea_based_toNat` at each of the eight bases; DIRECT is its literal by definition. -/
theorem effectiveAddressIsTheWrappedSum : Obligations.EffectiveAddressIsTheWrappedSum := by
  intro s d
  have based (b : Base) := s.ea_based_toNat b d
  exact ⟨based .bxSi, based .bxDi, based .bpSi, based .bpDi, based .si, based .di, based .bp, based .bx, fun _ => rfl⟩

end Sys2Proof.Machine
end

section
/-! PROOFS. The statements of the family 30_encoding.md: decoding is total (R110), the modrm byte selects the operand
(R91 to R96), the direction bit selects the destination (R98). -/

namespace Sys2Proof

open Sys2Proof.Machine

/-! ## Fields as numbers (R84, R85, R90) -/

theorem widthOf_bit_zero (b : Byte) : widthOf (b.getLsbD 0) = if b.toNat % 2 = 1 then .word else .byte := by
  simp [widthOf, BitVec.getLsbD, Nat.testBit_zero]

theorem direction_eq_decide (b : Byte) : b.getLsbD 1 = decide (b.toNat / 2 % 2 = 1) := by
  simp [BitVec.getLsbD, Nat.testBit_succ, Nat.testBit_zero]

theorem modField_toNat (b : Byte) : (modField b).toNat = b.toNat / 64 := by
  have := b.isLt
  simp only [modField, BitVec.extractLsb'_toNat, Nat.shiftRight_eq_div_pow]
  omega

theorem regField_toNat (b : Byte) : (regField b).toNat = b.toNat / 8 % 8 := by
  simp [regField, BitVec.extractLsb'_toNat, Nat.shiftRight_eq_div_pow]

theorem rmField_toNat (b : Byte) : (rmField b).toNat = b.toNat % 8 := by
  simp [rmField, BitVec.extractLsb'_toNat]

theorem modField_eq_iff (b : Byte) (m : BitVec 2) : modField b = m ↔ b.toNat / 64 = m.toNat := by
  rw [← BitVec.toNat_inj, modField_toNat]

theorem rmField_eq_iff (b : Byte) (f : BitVec 3) : rmField b = f ↔ b.toNat % 8 = f.toNat := by
  rw [← BitVec.toNat_inj, rmField_toNat]

theorem registerTable_getElem? (w : Width) (f : BitVec 3) : (registerTable w)[f.toNat]? = some (regOf w f) := by
  cases w <;> decide +revert

theorem baseTable_getElem? (f : BitVec 3) : baseTable[f.toNat]? = some (baseOf f) := by
  decide +revert

theorem Window.get16_two_toNat (win : Window) : (win.get16 2).toNat = win.b2.toNat + 256 * win.b3.toNat := by
  have join : (win.get16 2).toNat = win.b3.toNat * 256 + win.b2.toNat := joinBytes_toNat win.b3 win.b2
  omega

theorem signedDisp_d8 (d : Byte) :
    signedDisp (.d8 d) = if d.toNat < 128 then (d.toNat : Int) else d.toNat - 256 := by
  have := d.toInt_eq_toNat_cond
  simp only [signedDisp]
  omega

theorem signedDisp_d16 (d : Word) :
    signedDisp (.d16 d) = if d.toNat < 32768 then (d.toNat : Int) else d.toNat - 65536 := by
  have := d.toInt_eq_toNat_cond
  simp only [signedDisp]
  omega

/-! ## Lengths (R108) -/

/-- Every term of `Instr`, decoded or not, is 2 to 6 bytes long. -/
theorem Instr.len_bounds (i : Instr) : 2 ≤ i.len ∧ i.len ≤ windowLen := by
  cases i
  case movRmReg rm _ | addRmReg rm _ | subRmReg rm _ | cmpRmReg rm _ => exact Laws.Length.rm_bounds rm
  case movRegRm _ rm | addRegRm _ rm | subRegRm _ rm | cmpRegRm _ rm => exact Laws.Length.rm_bounds rm
  case movRmImm rm i | addRmImm rm i | subRmImm rm i | cmpRmImm rm i => exact Laws.Length.rmImm_bounds rm i.len_bounds
  case movRegImm _ i | addAccImm i | subAccImm i | cmpAccImm i => exact Laws.Length.imm_bounds i
  all_goals simp [Instr.len, windowLen]

/-- With a modrm byte an instruction is its first byte, that byte, the displacement bytes and the immediate bytes. -/
theorem Instr.len_of_modrmOperand {i : Instr} {o : RM} (h : modrmOperand i = some o) :
    i.len = 2 + o.dispLen + immediateLen i := by
  cases i <;> cases h <;> rfl

/-! ## What a decoded modrm byte stands for -/

theorem modrmOperand_jccOf (cc : BitVec 4) (rel : Byte) : modrmOperand (jccOf cc rel) = none := by
  unfold jccOf; split <;> rfl

theorem modrmOperand_loopOf (cc : BitVec 2) (rel : Byte) : modrmOperand (loopOf cc rel) = none := by
  unfold loopOf; split <;> rfl

/-- The operand that mod and rm select is read at the width of the first byte's bit 0. -/
theorem modrmOperand_of_decodeWith {c : Config} {win : Window} {i : Instr} {o : RM} (h : decodeWith c win = .ok i)
    (ho : modrmOperand i = some o) : o = rmOperand win (widthOf (win.b0.getLsbD 0)) := by
  cases decodeWith_inv h
  case movRmReg hb | movRegRm hb | addRmReg hb | addRegRm hb | subRmReg hb | subRegRm hb | cmpRmReg hb | cmpRegRm hb |
      movRmImm hb _ =>
    cases ho
    rw [hb, opcode7_width]
  case group s w op hb _ =>
    obtain ⟨-, width, -⟩ := classify_groupByte s w
    rw [hb, width]
    cases op <;> cases ho <;> rfl
  case jcc => simp [modrmOperand_jccOf] at ho
  case loop => simp [modrmOperand_loopOf] at ho
  all_goals cases ho

/-- Destination and source of an instruction of format RM whose direction bit is `d` (R98). -/
def rmOperands (d : Bool) (o : RM) (r : Reg) : Option Operand × Option Operand :=
  if d then (some (.rm (.reg r)), some (.rm o)) else (some (.rm o), some (.rm (.reg r)))

/-- In format RM the middle field of the modrm byte names the register, and the first byte's bit 1 is the direction. -/
theorem modrmRegister_of_decodeWith {c : Config} {win : Window} {i : Instr} {o : RM} {r : Reg}
    (h : decodeWith c win = .ok i) (ho : modrmOperand i = some o) (hr : modrmRegister i = some r) :
    r = regOf (widthOf (win.b0.getLsbD 0)) (regField win.b1) ∧ i.operands c = rmOperands (win.b0.getLsbD 1) o r := by
  cases decodeWith_inv h
  case movRmReg hb | movRegRm hb | addRmReg hb | addRegRm hb | subRmReg hb | subRegRm hb | cmpRmReg hb | cmpRegRm hb =>
    cases ho
    cases hr
    rw [hb, opcode7_width, opcode7_direction]
    exact ⟨rfl, rfl⟩
  case group op _ _ => cases op <;> cases hr
  case jcc => simp [modrmOperand_jccOf] at ho
  case loop => simp [modrmOperand_loopOf] at ho
  all_goals cases hr

/-! ## The two encodings of a pair of registers -/

/-- Encodings that begin with one opcode byte have one direction bit, whatever their widths and later bytes. -/
theorem direction_eq_of_cons_eq {bits bits' : BitVec 7} {w w' : Width} {bs bs' : List Byte}
    (e : opcode7 bits w :: bs = opcode7 bits' w' :: bs') : bits.getLsbD 0 = bits'.getLsbD 0 := by
  have direction := congrArg (·.getLsbD 1) (List.cons.inj e).1
  simpa only [opcode7_direction] using direction

/-! ## The obligations -/

/-- Settles O4: every instruction fits the window, and the only error of the decoder carries the first two bytes. -/
theorem decodeIsTotalAndStaysInTheWindow : Obligations.DecodeIsTotalAndStaysInTheWindow := by
  intro c win
  cases h : decodeWith c win with
  | ok i => exact .inl ⟨i, rfl, i.len_bounds⟩
  | error e => exact .inr (by rw [decodeWith_error h])

/-- Settles O10: the operand is `rmOperand`, which mod and rm determine; the length is counted from its displacement. -/
theorem modrmByteSelectsTheOperand : Obligations.ModrmByteSelectsTheOperand := by
  intro win i o hdec ho w mod rm wide
  have operand : o = rmOperand win w := by
    rw [modrmOperand_of_decodeWith hdec ho, widthOf_bit_zero]
  have len : i.len = 2 + o.dispLen + immediateLen i := Instr.len_of_modrmOperand ho
  have reg : (registerTable w)[rm]? = some (regOf w (rmField win.b1)) := by
    rw [← registerTable_getElem?, rmField_toNat]
  have base : baseTable[rm]? = some (baseOf (rmField win.b1)) := by
    rw [← baseTable_getElem?, rmField_toNat]
  have modIs {m : BitVec 2} (h : mod = m.toNat) : modField win.b1 = m := (modField_eq_iff ..).2 h
  have rmIs6 : rmField win.b1 = 6 ↔ rm = 6 := rmField_eq_iff ..
  have wide_toNat : (win.get16 2).toNat = wide := win.get16_two_toNat
  refine ⟨fun h3 => ?_, fun h0 h6 => ?_, fun h0 h6 => ?_, fun h1 => ?_, fun h2 => ?_⟩
  · rw [rmOperand_reg (modIs h3)] at operand
    subst operand
    exact ⟨len, _, reg, rfl⟩
  · rw [rmOperand_direct (modIs h0) (rmIs6.2 h6)] at operand
    subst operand
    exact ⟨len, _, wide_toNat, rfl, fun _ => rfl⟩
  · rw [rmOperand_none (modIs h0) (mt rmIs6.1 h6)] at operand
    subst operand
    exact ⟨len, _, base, rfl⟩
  · rw [rmOperand_d8 (modIs h1)] at operand
    subst operand
    exact ⟨len, signedDisp_d8 _, _, base, rfl⟩
  · rw [rmOperand_d16 (modIs h2)] at operand
    subst operand
    exact ⟨len, _, _, base, wide_toNat, wide_toNat ▸ signedDisp_d16 _, rfl⟩

/-- Settles O11: the decoder orders the operands by the direction bit, the one bit in which the two encodings of a pair
of registers are sure to differ. -/
theorem directionBitSelectsTheDestination : Obligations.DirectionBitSelectsTheDestination := by
  refine ⟨fun c win i o r h ho hr => ?_, fun c a b => ?_⟩
  · obtain ⟨register, operands⟩ := modrmRegister_of_decodeWith h ho hr
    rw [widthOf_bit_zero] at register
    rw [direction_eq_decide] at operands
    refine ⟨?_, fun d0 => ?_, fun d1 => ?_⟩
    · rw [← regField_toNat, registerTable_getElem?, ← register]
    · simpa [d0, rmOperands] using operands
    · simpa [d1, rmOperands] using operands
  · simp only [List.forall_mem_cons, List.not_mem_nil, false_imp_iff, implies_true, and_true]
    refine ⟨⟨rfl, ?_⟩, ⟨rfl, ?_⟩, ⟨rfl, ?_⟩, ⟨rfl, ?_⟩⟩ <;>
      exact fun e => absurd (direction_eq_of_cons_eq e) (by decide)

end Sys2Proof
end

section
/-! PROOFS. The statements of the family 41_arith.md: the ALU is exact arithmetic modulo the width (R130). -/

namespace Sys2Proof.Machine

/-! ## Wrapped sums and differences at a width -/

/-- Truncating to a width absorbs the wrap at 16 bits. -/
theorem two_pow_widthBits_dvd (w : Width) : 2 ^ widthBits w ∣ 2 ^ 16 :=
  Nat.pow_dvd_pow 2 (by cases w <;> decide)

theorem truncate_add_toNat (a b : Word) (w : Width) :
    (truncate w (a + b)).toNat = (a.toNat + b.toNat) % 2 ^ widthBits w := by
  rw [truncate_toNat, BitVec.toNat_add, Nat.mod_mod_of_dvd _ (two_pow_widthBits_dvd w)]

/-- A 16-bit difference is the difference on integers, wrapped. -/
theorem toNat_sub_eq_emod (a b : Word) : ((a - b).toNat : Int) = ((a.toNat : Int) - b.toNat) % (2 ^ 16 : Nat) := by
  have := b.isLt
  rw [BitVec.toNat_sub]
  omega

theorem truncate_sub_toNat (a b : Word) (w : Width) :
    (truncate w (a - b)).toNat = (((a.toNat : Int) - b.toNat) % (2 ^ widthBits w : Nat)).toNat := by
  have wrap : ((truncate w (a - b)).toNat : Int) = ((a.toNat : Int) - b.toNat) % (2 ^ widthBits w : Nat) := by
    rw [truncate_toNat, Int.natCast_emod, toNat_sub_eq_emod,
      Int.emod_emod_of_dvd _ (Int.natCast_dvd_natCast.2 (two_pow_widthBits_dvd w))]
  rw [← wrap, Int.toNat_natCast]

/-! ## The obligation -/

/-- Settles O22: addition is a truncated sum; subtraction and comparison are one truncated difference. -/
theorem aluIsExactArithmeticModuloTheWidth : Obligations.AluIsExactArithmeticModuloTheWidth := by
  intro op a b w
  cases op with
  | add => exact truncate_add_toNat a b w
  | sub | cmp => exact truncate_sub_toNat a b w

end Sys2Proof.Machine
end

section
/-! PROOFS. The statements about the decoder and the encoder (30_encoding.md): each undoes the other, the decoder follows
the opcode table, which windows it refuses, what single fields decide. -/

namespace Sys2Proof

open Sys2Proof.Machine

/-! ## Decoding an instruction's own bytes, by format (R81) -/

/-- Format RM: `build` makes the instruction of the two operands, in the order of its direction bit. -/
theorem decode_rmFormat {bits : BitVec 7} {build : RM → Reg → Instr}
    (dec : ∀ {win : Window} {w : Width}, win.b0 = opcode7 bits w →
      decodeWith config win = .ok (build (rmOperand win w) (regOf w (regField win.b1))))
    {rm : RM} {r : Reg} (fits : rm.fits r.width = true) (rest : List Byte) :
    decode (Window.ofBytes ((opcode7 bits r.width :: rm.encode r.code) ++ rest)) = .ok (build rm r) := by
  rw [List.cons_append, decode, dec (w := r.width) rfl, rmOperand_encode fits, regField_encode, regOf_code]

/-- The immediate that ends an instruction of format RMI, read back from behind its operand's bytes. -/
theorem getD_rmiFormat (b0 : Byte) (rm : RM) (sub : BitVec 3) {bs : List Byte} (h : bs.length ≤ 2) (rest : List Byte) :
    ∀ k, k < bs.length →
      (Window.ofBytes ((b0 :: rm.encode sub) ++ bs ++ rest)).get (2 + rm.dispLen + k) = bs.getD k 0 := by
  intro k hk
  have := rm.dispLen_le
  rw [Window.get_ofBytes _ (by simp only [windowLen]; omega), RM.getD_after _ _ _ _ _ hk]

theorem decode_movRmImm {rm : RM} {i : Imm} (fits : rm.fits i.width = true) (rest : List Byte) :
    decode (Window.ofBytes (encode (.movRmImm rm i) ++ rest)) = .ok (.movRmImm rm i) := by
  have imm := getD_rmiFormat (opcode7 0b1100011 i.width) rm 0 (bs := i.encode) (by simp [i.len_bounds.2]) rest
  have operand := rmOperand_encode fits 0 (opcode7 0b1100011 i.width) (i.encode ++ rest)
  have reg := regField_encode rm 0 (opcode7 0b1100011 i.width) (i.encode ++ rest)
  simp only [Imm.encode_length, List.append_assoc, List.cons_append] at imm
  simp only [encode, List.append_assoc, List.cons_append]
  rw [decode, decodeWith_movRmImm (w := i.width) rfl reg, operand, immAt_encode rfl _ _ imm]

/-- Format RMI of the arithmetic group: sub-op `sub` selects `op`. -/
theorem decode_groupFormat {op : ArithOp} {sub : BitVec 3} (hop : arithOf sub = some op) {rm : RM} {g : GroupImm}
    (fits : rm.fits g.width = true) (rest : List Byte) :
    decode (Window.ofBytes (encodeGroup sub rm g ++ rest)) = .ok (op.rmImm rm g) := by
  have imm := getD_rmiFormat (groupByte g.signed g.width) rm sub (bs := g.encode) (by simp [g.len_bounds.2]) rest
  have operand := rmOperand_encode fits sub (groupByte g.signed g.width) (g.encode ++ rest)
  have selects := (congrArg arithOf (regField_encode rm sub (groupByte g.signed g.width) (g.encode ++ rest))).trans hop
  simp only [GroupImm.encode_length, List.append_assoc, List.cons_append] at imm
  simp only [encodeGroup, groupByte_eq, List.append_assoc, List.cons_append]
  rw [decode, decodeWith_group (s := g.signed) (w := g.width) rfl selects, operand, groupImmAt_encode _ _ imm]

/-- The immediate that follows the first byte, in formats RI and AI. -/
theorem immAt_one_encode (b0 : Byte) (i : Imm) (rest : List Byte) :
    immAt (Window.ofBytes ((b0 :: i.encode) ++ rest)) 1 i.width = i := by
  cases i <;> simp [Imm.encode, Imm.width, immAt, wordBytes, Window.ofBytes, Window.get, Window.get16, Window.bytes]

/-- Format AI. -/
theorem decode_accFormat {bits : BitVec 7} {build : Imm → Instr}
    (dec : ∀ {win : Window} {w : Width}, win.b0 = opcode7 bits w → config.admitUnnamedForms = true →
      decodeWith config win = .ok (build (immAt win 1 w)))
    (i : Imm) (rest : List Byte) :
    decode (Window.ofBytes ((opcode7 bits i.width :: i.encode) ++ rest)) = .ok (build i) := by
  rw [decode, dec (w := i.width) rfl rfl, immAt_one_encode]

theorem decode_movRegImm {r : Reg} {i : Imm} (h : r.width = i.width) (rest : List Byte) :
    decode (Window.ofBytes (encode (.movRegImm r i) ++ rest)) = .ok (.movRegImm r i) := by
  rw [decode, decodeWith_movRegImm (w := r.width) (f := r.code) rfl, regOf_code, h, encode, immAt_one_encode]

/-- The address that follows the first byte, in format AM. -/
theorem get16_one_ofBytes (b0 : Byte) (a : Word) (rest : List Byte) :
    (Window.ofBytes ((b0 :: wordBytes a) ++ rest)).get16 1 = a :=
  joinBytes_hi_lo a

theorem decode_jcc (cc : BitVec 4) (rel : Byte) (rest : List Byte) :
    decode (Window.ofBytes ([0b0111#4 ++ cc, rel] ++ rest)) = .ok (jccOf cc rel) :=
  decodeWith_jcc rfl

theorem decode_loop (cc : BitVec 2) (rel : Byte) (rest : List Byte) :
    decode (Window.ofBytes ([0b111000#6 ++ cc, rel] ++ rest)) = .ok (loopOf cc rel) :=
  decodeWith_loop rfl

/-- Settles O2: the bytes of each format are read back field by field. -/
theorem decodeOfEncodeIsIdentity : Obligations.DecodeOfEncodeIsIdentity := by
  intro i wf rest
  cases i with
  | movRmReg rm r => exact decode_rmFormat decodeWith_movRmReg wf rest
  | movRegRm r rm => exact decode_rmFormat (build := fun rm r => .movRegRm r rm) decodeWith_movRegRm wf rest
  | movRmImm rm i => exact decode_movRmImm wf rest
  | movRegImm r i => exact decode_movRegImm (beq_iff_eq.1 wf) rest
  | movAccMem w a => rw [decode, decodeWith_movAccMem (w := w) rfl, encode, get16_one_ofBytes]
  | movMemAcc a w => rw [decode, decodeWith_movMemAcc (w := w) rfl rfl, encode, get16_one_ofBytes]
  | addRmReg rm r => exact decode_rmFormat decodeWith_addRmReg wf rest
  | addRegRm r rm => exact decode_rmFormat (build := fun rm r => .addRegRm r rm) decodeWith_addRegRm wf rest
  | addRmImm rm g => exact decode_groupFormat (op := .add) rfl wf rest
  | addAccImm i => exact decode_accFormat decodeWith_addAccImm i rest
  | subRmReg rm r => exact decode_rmFormat decodeWith_subRmReg wf rest
  | subRegRm r rm => exact decode_rmFormat (build := fun rm r => .subRegRm r rm) decodeWith_subRegRm wf rest
  | subRmImm rm g => exact decode_groupFormat (op := .sub) rfl wf rest
  | subAccImm i => exact decode_accFormat decodeWith_subAccImm i rest
  | cmpRmReg rm r => exact decode_rmFormat decodeWith_cmpRmReg wf rest
  | cmpRegRm r rm => exact decode_rmFormat (build := fun rm r => .cmpRegRm r rm) decodeWith_cmpRegRm wf rest
  | cmpRmImm rm g => exact decode_groupFormat (op := .cmp) rfl wf rest
  | cmpAccImm i => exact decode_accFormat decodeWith_cmpAccImm i rest
  | jo rel => exact decode_jcc 0 rel rest
  | jno rel => exact decode_jcc 1 rel rest
  | jb rel => exact decode_jcc 2 rel rest
  | jnb rel => exact decode_jcc 3 rel rest
  | je rel => exact decode_jcc 4 rel rest
  | jne rel => exact decode_jcc 5 rel rest
  | jbe rel => exact decode_jcc 6 rel rest
  | ja rel => exact decode_jcc 7 rel rest
  | js rel => exact decode_jcc 8 rel rest
  | jns rel => exact decode_jcc 9 rel rest
  | jp rel => exact decode_jcc 10 rel rest
  | jnp rel => exact decode_jcc 11 rel rest
  | jl rel => exact decode_jcc 12 rel rest
  | jge rel => exact decode_jcc 13 rel rest
  | jle rel => exact decode_jcc 14 rel rest
  | jg rel => exact decode_jcc 15 rel rest
  | loopnz rel => exact decode_loop 0 rel rest
  | loopz rel => exact decode_loop 1 rel rest
  | loop rel => exact decode_loop 2 rel rest
  | jcxz rel => exact decode_loop 3 rel rest

/-! ## The bytes a decoded instruction consumed -/

theorem Window.ofBytes_bytes (win : Window) : Window.ofBytes win.bytes = win := rfl

theorem Window.take_one_drop (win : Window) {p : Nat} (hp : p < windowLen) :
    (win.bytes.drop p).take 1 = [win.get p] := by
  simp only [windowLen] at hp
  interval_cases p <;> rfl

/-- The two bytes at `p` are those of the word the decoder reads there, low byte first (R80). -/
theorem Window.take_two_drop (win : Window) {p : Nat} (hp : p + 1 < windowLen) :
    (win.bytes.drop p).take 2 = wordBytes (win.get16 p) := by
  simp only [windowLen] at hp
  simp only [wordBytes, Window.get16, loByte_joinBytes, hiByte_joinBytes]
  have : p ≤ 4 := by omega
  interval_cases p <;> rfl

/-- Re-encoding the operand that mod and rm select gives the modrm byte and the displacement bytes. -/
theorem encode_rmOperand (win : Window) (w : Width) :
    (rmOperand win w).encode (regField win.b1) = (win.bytes.drop 1).take (1 + (rmOperand win w).dispLen) := by
  have modrm {m : BitVec 2} {n : BitVec 3} (hm : modField win.b1 = m) (hn : rmField win.b1 = n) :
      modrmByte m (regField win.b1) n = win.b1 := hm ▸ hn ▸ modrmByte_fields win.b1
  rcases modField_cases win.b1 with h | h | h | h
  · by_cases h6 : rmField win.b1 = 6
    · rw [rmOperand_direct h h6]
      simpa [RM.encode, RM.dispLen, Window.bytes, Window.get, Window.get16, wordBytes] using modrm h h6
    · rw [rmOperand_none h h6]
      simpa [RM.encode, RM.dispLen, Window.bytes] using modrm h rfl
  · rw [rmOperand_d8 h]
    simpa [RM.encode, RM.dispLen, Window.bytes, Window.get] using modrm h rfl
  · rw [rmOperand_d16 h]
    simpa [RM.encode, RM.dispLen, Window.bytes, Window.get, Window.get16, wordBytes] using modrm h rfl
  · rw [rmOperand_reg h]
    simpa [RM.encode, RM.dispLen, Window.bytes] using modrm h rfl

/-- Re-encoding an immediate gives the bytes it was read from. -/
theorem encode_immAt (win : Window) {p : Nat} (w : Width) (hp : p + 1 < windowLen) :
    (immAt win p w).encode = (win.bytes.drop p).take (immAt win p w).len := by
  cases w with
  | byte => exact (win.take_one_drop (by omega)).symm
  | word => exact (win.take_two_drop hp).symm

theorem encode_groupImmAt (win : Window) {p : Nat} (w : Width) (s : Bool) (hp : p + 1 < windowLen) :
    (groupImmAt win p w s).encode = (win.bytes.drop p).take (groupImmAt win p w s).len := by
  cases w with
  | byte => exact (win.take_one_drop (by omega)).symm
  | word =>
    cases s with
    | false => exact (win.take_two_drop hp).symm
    | true => exact (win.take_one_drop (by omega)).symm

/-! The consumed bytes of a window, by format (R81). -/

/-- The first byte and `n` bytes after it. -/
theorem Window.take_one_add (win : Window) (n : Nat) :
    win.bytes.take (1 + n) = win.b0 :: (win.bytes.drop 1).take n := by
  rw [Nat.add_comm]; rfl

theorem consumed_rmFormat {win : Window} {bits : BitVec 7} {w : Width} (h : win.b0 = opcode7 bits w) :
    opcode7 bits (regOf w (regField win.b1)).width :: (rmOperand win w).encode (regOf w (regField win.b1)).code =
      win.bytes.take (2 + (rmOperand win w).dispLen) := by
  rw [regOf_width, code_regOf, encode_rmOperand, ← h, ← Window.take_one_add, ← Nat.add_assoc]

/-- Format RMI, with the immediate bytes `bs` behind those of the operand. -/
theorem consumed_rmiFormat {win : Window} (w : Width) {b0 : Byte} {sub : BitVec 3} (h : win.b0 = b0)
    (hsub : regField win.b1 = sub) {bs : List Byte} {n : Nat}
    (hbs : bs = (win.bytes.drop (2 + (rmOperand win w).dispLen)).take n) :
    (b0 :: (rmOperand win w).encode sub) ++ bs = win.bytes.take (2 + (rmOperand win w).dispLen + n) := by
  rw [List.take_add, ← hbs, ← h, ← hsub, encode_rmOperand, ← Window.take_one_add, ← Nat.add_assoc]

/-- Formats RI and AI. -/
theorem consumed_immFormat {win : Window} (w : Width) {b0 : Byte} (h : win.b0 = b0) :
    b0 :: (immAt win 1 w).encode = win.bytes.take (1 + (immAt win 1 w).len) := by
  rw [Window.take_one_add, encode_immAt win w (by decide), h]

/-- Format AM. -/
theorem consumed_addressFormat {win : Window} {b0 : Byte} (h : win.b0 = b0) :
    b0 :: wordBytes (win.get16 1) = win.bytes.take 3 := by
  rw [← win.take_two_drop (by decide), ← h]; rfl

/-! ## The fields of decoded operands -/

theorem immAt_width (win : Window) (p : Nat) (w : Width) : (immAt win p w).width = w := by cases w <;> rfl

theorem groupImmAt_width (win : Window) (p : Nat) (w : Width) (s : Bool) : (groupImmAt win p w s).width = w := by
  cases w <;> cases s <;> rfl

theorem groupImmAt_signed (win : Window) (p : Nat) (w : Width) (s : Bool) : (groupImmAt win p w s).signed = s := by
  cases w <;> cases s <;> rfl

/-- The immediate behind the operand of mod and rm ends inside the window. -/
theorem RM.immediate_inWindow (rm : RM) : 2 + rm.dispLen + 1 < windowLen := by
  have := rm.dispLen_le
  simp only [windowLen]; omega

theorem rmOperand_fits_regOf (win : Window) (w : Width) (f : BitVec 3) :
    (rmOperand win w).fits (regOf w f).width = true := by
  rw [regOf_width, rmOperand_fits]

theorem rmOperand_fits_immAt (win : Window) (w : Width) (p : Nat) :
    (rmOperand win w).fits (immAt win p w).width = true := by
  rw [immAt_width, rmOperand_fits]

theorem rmOperand_fits_groupImmAt (win : Window) (w : Width) (p : Nat) (s : Bool) :
    (rmOperand win w).fits (groupImmAt win p w s).width = true := by
  rw [groupImmAt_width, rmOperand_fits]

/-- What the twenty jumps have in common: `b0` and the displacement are the bytes of `i` (R88, R160). -/
structure Instr.IsJump (i : Instr) (b0 rel : Byte) : Prop where
  wf       : i.wf = true
  encode   : encode i = [b0, rel]
  len      : i.len = 2
  operands : ∀ c, i.operands c = (some (.rel8 rel), none)
  op       : i.op ∉ [OpTag.mov, .add, .sub, .cmp]

theorem jccOf_isJump (cc : BitVec 4) (rel : Byte) : (jccOf cc rel).IsJump (0b0111#4 ++ cc) rel := by
  obtain ⟨⟨n, hn⟩⟩ := cc
  interval_cases n <;> constructor <;>
    simp [jccOf, Instr.wf, encode, Instr.len, Instr.operands, Instr.op]

theorem loopOf_isJump (cc : BitVec 2) (rel : Byte) : (loopOf cc rel).IsJump (0b111000#6 ++ cc) rel := by
  obtain ⟨⟨n, hn⟩⟩ := cc
  interval_cases n <;> constructor <;>
    simp [loopOf, Instr.wf, encode, Instr.len, Instr.operands, Instr.op]

theorem Instr.IsJump.encode_eq_take {i : Instr} {win : Window} {b0 : Byte} (h : i.IsJump b0 win.b1) (hb : win.b0 = b0) :
    Sys2Proof.encode i = win.bytes.take i.len := by
  rw [h.encode, h.len, ← hb]; rfl

/-- The sub-op of each operation of the arithmetic group (R103). -/
def ArithOp.subOp : ArithOp → BitVec 3
  | .add => 0b000
  | .sub => 0b101
  | .cmp => 0b111

theorem arithOf_eq_some_iff (f : BitVec 3) (op : ArithOp) : arithOf f = some op ↔ f = op.subOp := by
  cases op <;> decide +revert

theorem ArithOp.rmImm_eq (op : ArithOp) (rm : RM) (g : GroupImm) :
    encode (op.rmImm rm g) = encodeGroup op.subOp rm g ∧ (op.rmImm rm g).len = 2 + rm.dispLen + g.len ∧
      (op.rmImm rm g).wf = rm.fits g.width := by
  cases op <;> exact ⟨rfl, rfl, rfl⟩

/-- Settles O3: each field of a decoded instruction encodes to the bytes it was read from. -/
theorem encodeOfDecodeIsConsumedBytes : Obligations.EncodeOfDecodeIsConsumedBytes := by
  intro win i h
  cases decodeWith_inv h
  case movRmReg w hb | movRegRm w hb | addRmReg w hb | addRegRm w hb | subRmReg w hb | subRegRm w hb | cmpRmReg w hb |
      cmpRegRm w hb =>
    exact ⟨rmOperand_fits_regOf .., consumed_rmFormat hb⟩
  case movRmImm w hb hr =>
    have reg : regField win.b1 = 0 := by simpa [config, Config.decided] using hr
    refine ⟨rmOperand_fits_immAt .., consumed_rmiFormat w ?_ reg (encode_immAt win w (RM.immediate_inWindow _))⟩
    rw [immAt_width, hb]
  case movRegImm w f hb =>
    refine ⟨by rw [Instr.WellFormed, Instr.wf, regOf_width, immAt_width, beq_self_eq_true], consumed_immFormat w ?_⟩
    rw [regOf_width, code_regOf, hb, riByte]
  case movAccMem w hb => exact ⟨rfl, consumed_addressFormat hb⟩
  case movMemAcc w hb _ => exact ⟨rfl, consumed_addressFormat hb⟩
  case addAccImm w hb _ | subAccImm w hb _ | cmpAccImm w hb _ =>
    refine ⟨rfl, consumed_immFormat w ?_⟩
    rw [immAt_width, hb]
  case group s w op hb ho =>
    obtain ⟨enc, len, wf⟩ := op.rmImm_eq (rmOperand win w) (groupImmAt win (2 + (rmOperand win w).dispLen) w s)
    rw [Instr.WellFormed, enc, len, wf]
    refine ⟨rmOperand_fits_groupImmAt .., consumed_rmiFormat w ?_ ((arithOf_eq_some_iff ..).1 ho)
      (encode_groupImmAt win w s (RM.immediate_inWindow _))⟩
    rw [groupByte_eq, groupImmAt_signed, groupImmAt_width, hb]
  case jcc cc hb => exact ⟨(jccOf_isJump cc _).wf, (jccOf_isJump cc _).encode_eq_take hb⟩
  case loop cc hb => exact ⟨(loopOf_isJump cc _).wf, (loopOf_isJump cc _).encode_eq_take hb⟩

/-! ## The rows of the opcode table (R118) -/

/-- `Laws.Row` for every instruction at once: a row fixes the first byte, and in format RMI the middle field too. -/
theorem Instr.row_selects_encode (i : Instr) : Laws.Row.Statement i := by
  cases i
  case movRmReg | movRegRm | addRmReg | addRegRm | subRmReg | subRegRm | cmpRmReg | cmpRegRm | movAccMem | movMemAcc |
      addAccImm | subAccImm | cmpAccImm =>
    exact Laws.Row.of_first rfl rfl rfl (Laws.Row.opcode7_and _ _)
  case movRmImm rm i => exact Laws.Row.movRmImm rm i
  case movRegImm r i => exact Laws.Row.movRegImm r i
  case addRmImm rm g => exact Laws.Row.addRmImm rm g
  case subRmImm rm g => exact Laws.Row.subRmImm rm g
  case cmpRmImm rm g => exact Laws.Row.cmpRmImm rm g
  all_goals exact Laws.Row.of_first rfl rfl rfl BitVec.and_allOnes

/-- A window that decodes begins with the encoding of its instruction. -/
theorem exists_ofBytes_encode {win : Window} {i : Instr} (h : decode win = .ok i) :
    i.WellFormed ∧ ∃ rest, win = Window.ofBytes (encode i ++ rest) := by
  obtain ⟨wf, enc⟩ := encodeOfDecodeIsConsumedBytes win i h
  exact ⟨wf, win.bytes.drop i.len, by rw [enc, List.take_append_drop, Window.ofBytes_bytes]⟩

theorem row_selects_of_decode {win : Window} {i : Instr} (h : decode win = .ok i) : i.row.Selects win := by
  obtain ⟨wf, rest, rfl⟩ := exists_ofBytes_encode h
  exact i.row_selects_encode wf rest

/-! The first bytes that a mask and a pattern select. -/

theorem eq_opcode7_of_and {b : Byte} {bits : BitVec 7} (h : b &&& 0xFE = opcode7 bits .byte) :
    ∃ w, b = opcode7 bits w := by
  have split : ∀ b : Byte, b = opcode7 (b.extractLsb' 1 7) (widthOf (b.getLsbD 0)) := by decide
  have top : ∀ b : Byte, (b &&& 0xFE).extractLsb' 1 7 = b.extractLsb' 1 7 := by decide
  have bits_of : ∀ bits : BitVec 7, (opcode7 bits .byte).extractLsb' 1 7 = bits := by decide
  exact ⟨_, by rw [← bits_of bits, ← h, top]; exact split b⟩

theorem exists_riByte_of_and {b : Byte} (h : b &&& 0xF0 = 0xB0) : ∃ w, b = riByte w (rmField b) := by
  have split : ∀ b : Byte, b &&& 0xF0 = 0xB0 → b = riByte (widthOf (b.getLsbD 3)) (rmField b) := by decide
  exact ⟨_, split b h⟩

theorem exists_groupByte_of_and {b : Byte} (h : b &&& 0xFC = 0x80) : ∃ s w, b = groupByte s w := by
  have split : ∀ b : Byte, b &&& 0xFC = 0x80 → b = groupByte (b.getLsbD 1) (widthOf (b.getLsbD 0)) := by decide
  exact ⟨_, _, split b h⟩

theorem regField_of_and {b : Byte} {f : BitVec 3} (h : b &&& 0x38 = 0#2 ++ f ++ 0#3) : regField b = f := by
  have middle : ∀ f : BitVec 3, regField (0#2 ++ f ++ 0#3) = f := by decide
  rw [← middle f, ← h, and_0x38, middle]

section selects

variable {row : TableRow} {win : Window}

theorem TableRow.Selects.first_byte (h : row.Selects win) {x y m p : Byte} (hm : row.mask = joinBytes x m)
    (hp : row.pattern = joinBytes y p) : win.b0 &&& x = y := by
  have first := ((row.selects_iff win).1 h).1
  rwa [hm, hp, hiByte_joinBytes, hiByte_joinBytes] at first

theorem TableRow.Selects.eq_first_byte (h : row.Selects win) {y : Byte} (hm : row.mask = joinBytes 0xFF 0)
    (hp : row.pattern = joinBytes y 0) : win.b0 = y :=
  BitVec.and_allOnes.symm.trans (h.first_byte hm hp)

theorem TableRow.Selects.exists_opcode7 (h : row.Selects win) {bits : BitVec 7} (hm : row.mask = joinBytes 0xFE 0)
    (hp : row.pattern = joinBytes (opcode7 bits .byte) 0) : ∃ w, win.b0 = opcode7 bits w :=
  eq_opcode7_of_and (h.first_byte hm hp)

theorem TableRow.Selects.regField_eq (h : row.Selects win) {sub : BitVec 3} {x y : Byte}
    (hm : row.mask = joinBytes x 0x38) (hp : row.pattern = joinBytes y (0#2 ++ sub ++ 0#3)) :
    regField win.b1 = sub := by
  have second := ((row.selects_iff win).1 h).2
  rw [hm, hp, loByte_joinBytes, loByte_joinBytes] at second
  exact regField_of_and second

theorem decode_of_selects_group (op : ArithOp) (h : row.Selects win) (hrow : ∀ rm g, (op.rmImm rm g).row = row)
    (hm : row.mask = joinBytes 0xFC 0x38) (hp : row.pattern = joinBytes 0x80 (0#2 ++ op.subOp ++ 0#3)) :
    ∃ j, decode win = .ok j ∧ j.row = row := by
  obtain ⟨s, w, hb⟩ := exists_groupByte_of_and (h.first_byte hm hp)
  exact ⟨_, decodeWith_group hb ((arithOf_eq_some_iff ..).2 (h.regField_eq hm hp)), hrow _ _⟩

end selects

/-- A window that a row selects decodes: the row fixes its pattern and, in format RMI, its sub-op. -/
theorem decode_of_selects {win : Window} {i : Instr} (h : i.row.Selects win) :
    ∃ j, decode win = .ok j ∧ j.row = i.row := by
  cases i with
  | movRmReg =>
    obtain ⟨_, hb⟩ := h.exists_opcode7 (bits := 0b1000100) rfl rfl
    exact ⟨_, decodeWith_movRmReg hb, rfl⟩
  | movRegRm =>
    obtain ⟨_, hb⟩ := h.exists_opcode7 (bits := 0b1000101) rfl rfl
    exact ⟨_, decodeWith_movRegRm hb, rfl⟩
  | movRmImm =>
    obtain ⟨_, hb⟩ := eq_opcode7_of_and (h.first_byte (y := opcode7 0b1100011 .byte) (m := 0x38) (p := 0) rfl rfl)
    exact ⟨_, decodeWith_movRmImm hb (h.regField_eq (x := 0xFE) (y := 0xC6) rfl rfl), rfl⟩
  | movRegImm =>
    obtain ⟨_, hb⟩ := exists_riByte_of_and (h.first_byte (m := 0) (p := 0) rfl rfl)
    exact ⟨_, decodeWith_movRegImm hb, rfl⟩
  | movAccMem =>
    obtain ⟨_, hb⟩ := h.exists_opcode7 (bits := 0b1010000) rfl rfl
    exact ⟨_, decodeWith_movAccMem hb, rfl⟩
  | movMemAcc =>
    obtain ⟨_, hb⟩ := h.exists_opcode7 (bits := 0b1010001) rfl rfl
    exact ⟨_, decodeWith_movMemAcc hb rfl, rfl⟩
  | addRmReg =>
    obtain ⟨_, hb⟩ := h.exists_opcode7 (bits := 0b0000000) rfl rfl
    exact ⟨_, decodeWith_addRmReg hb, rfl⟩
  | addRegRm =>
    obtain ⟨_, hb⟩ := h.exists_opcode7 (bits := 0b0000001) rfl rfl
    exact ⟨_, decodeWith_addRegRm hb, rfl⟩
  | addRmImm => exact decode_of_selects_group .add h (fun _ _ => rfl) rfl rfl
  | addAccImm =>
    obtain ⟨_, hb⟩ := h.exists_opcode7 (bits := 0b0000010) rfl rfl
    exact ⟨_, decodeWith_addAccImm hb rfl, rfl⟩
  | subRmReg =>
    obtain ⟨_, hb⟩ := h.exists_opcode7 (bits := 0b0010100) rfl rfl
    exact ⟨_, decodeWith_subRmReg hb, rfl⟩
  | subRegRm =>
    obtain ⟨_, hb⟩ := h.exists_opcode7 (bits := 0b0010101) rfl rfl
    exact ⟨_, decodeWith_subRegRm hb, rfl⟩
  | subRmImm => exact decode_of_selects_group .sub h (fun _ _ => rfl) rfl rfl
  | subAccImm =>
    obtain ⟨_, hb⟩ := h.exists_opcode7 (bits := 0b0010110) rfl rfl
    exact ⟨_, decodeWith_subAccImm hb rfl, rfl⟩
  | cmpRmReg =>
    obtain ⟨_, hb⟩ := h.exists_opcode7 (bits := 0b0011100) rfl rfl
    exact ⟨_, decodeWith_cmpRmReg hb, rfl⟩
  | cmpRegRm =>
    obtain ⟨_, hb⟩ := h.exists_opcode7 (bits := 0b0011101) rfl rfl
    exact ⟨_, decodeWith_cmpRegRm hb, rfl⟩
  | cmpRmImm => exact decode_of_selects_group .cmp h (fun _ _ => rfl) rfl rfl
  | cmpAccImm =>
    obtain ⟨_, hb⟩ := h.exists_opcode7 (bits := 0b0011110) rfl rfl
    exact ⟨_, decodeWith_cmpAccImm hb rfl, rfl⟩
  | jo => exact ⟨_, decodeWith_jcc (cc := 0) (h.eq_first_byte rfl rfl), rfl⟩
  | jno => exact ⟨_, decodeWith_jcc (cc := 1) (h.eq_first_byte rfl rfl), rfl⟩
  | jb => exact ⟨_, decodeWith_jcc (cc := 2) (h.eq_first_byte rfl rfl), rfl⟩
  | jnb => exact ⟨_, decodeWith_jcc (cc := 3) (h.eq_first_byte rfl rfl), rfl⟩
  | je => exact ⟨_, decodeWith_jcc (cc := 4) (h.eq_first_byte rfl rfl), rfl⟩
  | jne => exact ⟨_, decodeWith_jcc (cc := 5) (h.eq_first_byte rfl rfl), rfl⟩
  | jbe => exact ⟨_, decodeWith_jcc (cc := 6) (h.eq_first_byte rfl rfl), rfl⟩
  | ja => exact ⟨_, decodeWith_jcc (cc := 7) (h.eq_first_byte rfl rfl), rfl⟩
  | js => exact ⟨_, decodeWith_jcc (cc := 8) (h.eq_first_byte rfl rfl), rfl⟩
  | jns => exact ⟨_, decodeWith_jcc (cc := 9) (h.eq_first_byte rfl rfl), rfl⟩
  | jp => exact ⟨_, decodeWith_jcc (cc := 10) (h.eq_first_byte rfl rfl), rfl⟩
  | jnp => exact ⟨_, decodeWith_jcc (cc := 11) (h.eq_first_byte rfl rfl), rfl⟩
  | jl => exact ⟨_, decodeWith_jcc (cc := 12) (h.eq_first_byte rfl rfl), rfl⟩
  | jge => exact ⟨_, decodeWith_jcc (cc := 13) (h.eq_first_byte rfl rfl), rfl⟩
  | jle => exact ⟨_, decodeWith_jcc (cc := 14) (h.eq_first_byte rfl rfl), rfl⟩
  | jg => exact ⟨_, decodeWith_jcc (cc := 15) (h.eq_first_byte rfl rfl), rfl⟩
  | loopnz => exact ⟨_, decodeWith_loop (cc := 0) (h.eq_first_byte rfl rfl), rfl⟩
  | loopz => exact ⟨_, decodeWith_loop (cc := 1) (h.eq_first_byte rfl rfl), rfl⟩
  | loop => exact ⟨_, decodeWith_loop (cc := 2) (h.eq_first_byte rfl rfl), rfl⟩
  | jcxz => exact ⟨_, decodeWith_loop (cc := 3) (h.eq_first_byte rfl rfl), rfl⟩

/-- Settles O8: the row of a decoded instruction selects its encoding, with which the window begins; a row that selects
a window fixes the window's pattern. -/
theorem decoderAgreesWithTheOpcodeTable : Obligations.DecoderAgreesWithTheOpcodeTable :=
  ⟨fun _ _ => row_selects_of_decode, fun _ _ => decode_of_selects⟩

/-! ## Operation, row and length by the first two bytes (R113) -/

/-- The displacement bytes are counted from the modrm byte alone. -/
theorem rmOperand_dispLen_congr {win win' : Window} (h : win'.b1 = win.b1) (w : Width) :
    (rmOperand win' w).dispLen = (rmOperand win w).dispLen := by
  rcases modField_cases win.b1 with hm | hm | hm | hm
  · by_cases h6 : rmField win.b1 = 6
    · rw [rmOperand_direct hm h6, rmOperand_direct (h ▸ hm) (h ▸ h6)]; rfl
    · rw [rmOperand_none hm h6, rmOperand_none (h ▸ hm) (h ▸ h6)]; rfl
  · rw [rmOperand_d8 hm, rmOperand_d8 (h ▸ hm)]; rfl
  · rw [rmOperand_d16 hm, rmOperand_d16 (h ▸ hm)]; rfl
  · rw [rmOperand_reg hm, rmOperand_reg (h ▸ hm)]; rfl

theorem immAt_len_congr (win win' : Window) (p p' : Nat) (w : Width) : (immAt win' p' w).len = (immAt win p w).len := by
  cases w <;> rfl

theorem groupImmAt_len_congr (win win' : Window) (p p' : Nat) (w : Width) (s : Bool) :
    (groupImmAt win' p' w s).len = (groupImmAt win p w s).len := by
  cases w <;> cases s <;> rfl

/-- Pattern 2 wherever the reg field is admitted (R104), under all parameters. -/
theorem decodeWith_movRmImm_of_admitted {c : Config} {win : Window} {w : Width} (h : win.b0 = opcode7 0b1100011 w)
    (hr : ¬(c.movImmRegField = .mustBe000 ∧ regField win.b1 ≠ 0)) :
    decodeWith c win = .ok (.movRmImm (rmOperand win w) (immAt win (2 + (rmOperand win w).dispLen) w)) := by
  rw [decodeWith_of_classify (p := .movRmImm) (by rw [h]; cases w <;> decide)]
  simp only [decodePattern, h, opcode7_width]
  exact if_neg hr

/-- Settles O5: the later bytes are only displacements and immediates, whose lengths the first two fix. -/
theorem firstTwoBytesFixOperationAndLength : Obligations.FirstTwoBytesFixOperationAndLength := by
  intro c win win' i h0 h1 h
  have disp (w : Width) := rmOperand_dispLen_congr h1 w
  cases decodeWith_inv h
  case movRmReg w hb => exact ⟨_, decodeWith_movRmReg (h0.trans hb), rfl, congrArg (2 + ·) (disp w), rfl⟩
  case movRegRm w hb => exact ⟨_, decodeWith_movRegRm (h0.trans hb), rfl, congrArg (2 + ·) (disp w), rfl⟩
  case addRmReg w hb => exact ⟨_, decodeWith_addRmReg (h0.trans hb), rfl, congrArg (2 + ·) (disp w), rfl⟩
  case addRegRm w hb => exact ⟨_, decodeWith_addRegRm (h0.trans hb), rfl, congrArg (2 + ·) (disp w), rfl⟩
  case subRmReg w hb => exact ⟨_, decodeWith_subRmReg (h0.trans hb), rfl, congrArg (2 + ·) (disp w), rfl⟩
  case subRegRm w hb => exact ⟨_, decodeWith_subRegRm (h0.trans hb), rfl, congrArg (2 + ·) (disp w), rfl⟩
  case cmpRmReg w hb => exact ⟨_, decodeWith_cmpRmReg (h0.trans hb), rfl, congrArg (2 + ·) (disp w), rfl⟩
  case cmpRegRm w hb => exact ⟨_, decodeWith_cmpRegRm (h0.trans hb), rfl, congrArg (2 + ·) (disp w), rfl⟩
  case movRmImm w hb hr =>
    exact ⟨_, decodeWith_movRmImm_of_admitted (h0.trans hb) (h1 ▸ hr), rfl,
      congrArg₂ (2 + · + ·) (disp w) (immAt_len_congr ..), rfl⟩
  case movRegImm w f hb =>
    exact ⟨_, decodeWith_movRegImm (h0.trans hb), rfl, congrArg (1 + ·) (immAt_len_congr ..), rfl⟩
  case movAccMem w hb => exact ⟨_, decodeWith_movAccMem (h0.trans hb), rfl, rfl, rfl⟩
  case movMemAcc w hb hc => exact ⟨_, decodeWith_movMemAcc (h0.trans hb) hc, rfl, rfl, rfl⟩
  case addAccImm w hb hc =>
    exact ⟨_, decodeWith_addAccImm (h0.trans hb) hc, rfl, congrArg (1 + ·) (immAt_len_congr ..), rfl⟩
  case subAccImm w hb hc =>
    exact ⟨_, decodeWith_subAccImm (h0.trans hb) hc, rfl, congrArg (1 + ·) (immAt_len_congr ..), rfl⟩
  case cmpAccImm w hb hc =>
    exact ⟨_, decodeWith_cmpAccImm (h0.trans hb) hc, rfl, congrArg (1 + ·) (immAt_len_congr ..), rfl⟩
  case group s w op hb ho =>
    refine ⟨_, decodeWith_group (h0.trans hb) (h1 ▸ ho), ?_⟩
    have len := congrArg₂ (2 + · + ·) (disp w) (groupImmAt_len_congr win win' (2 + (rmOperand win w).dispLen)
      (2 + (rmOperand win' w).dispLen) w s)
    cases op <;> exact ⟨rfl, len, rfl⟩
  case jcc cc hb => exact ⟨_, decodeWith_jcc (h0.trans hb), by rw [h1]; exact ⟨rfl, rfl, rfl⟩⟩
  case loop cc hb => exact ⟨_, decodeWith_loop (h0.trans hb), by rw [h1]; exact ⟨rfl, rfl, rfl⟩⟩

/-! ## The windows that do not decode -/

theorem classify_eq_none_iff (b : Byte) : classify b = none ↔ unsupportedFirstByte b.toNat = true := by decide +revert

theorem classify_eq_arithRmImm_iff (b : Byte) : classify b = some .arithRmImm ↔ 0x80 ≤ b.toNat ∧ b.toNat ≤ 0x83 := by
  decide +revert

theorem classify_eq_movRmImm_iff (b : Byte) : classify b = some .movRmImm ↔ 0xC6 ≤ b.toNat ∧ b.toNat ≤ 0xC7 := by
  decide +revert

theorem arithOf_eq_none_iff (f : BitVec 3) : arithOf f = none ↔ f.toNat ∉ [0, 5, 7] := by decide +revert

theorem ne_zero_iff_toNat (f : BitVec 3) : f ≠ 0 ↔ f.toNat ≠ 0 := by decide +revert

/-- The decoder refuses a window for one of three causes (R83, R103, R104). -/
theorem decode_error_iff (win : Window) :
    decode win = .error (.unsupportedOpcode win.b0 win.b1) ↔
      classify win.b0 = none ∨ (classify win.b0 = some .arithRmImm ∧ arithOf (regField win.b1) = none) ∨
        (classify win.b0 = some .movRmImm ∧ regField win.b1 ≠ 0) := by
  cases hp : classify win.b0 with
  | none => simp [decode, decodeWith, hp]
  | some p =>
    rw [decode, decodeWith_of_classify hp]
    cases p with
    | arithRmImm => cases ho : arithOf (regField win.b1) <;> simp [decodePattern, ho]
    | _ => simp [decodePattern, config, Config.decided]

/-- Settles O6: the first byte has no pattern, or it has one whose middle field selects nothing. -/
theorem unsupportedOpcodesAreExactly : Obligations.UnsupportedOpcodesAreExactly := by
  intro win
  rw [decode_error_iff, classify_eq_none_iff, classify_eq_arithRmImm_iff, classify_eq_movRmImm_iff, arithOf_eq_none_iff,
    ne_zero_iff_toNat, regField_toNat, and_assoc, and_assoc]

theorem classify_unnamed_iff (b : Byte) :
    b.toNat ∈ [0xA2, 0xA3, 0x04, 0x05, 0x2C, 0x2D, 0x3C, 0x3D] ↔
      classify b = some .movMemAcc ∨ ∃ op ∈ [ArithOp.add, .sub, .cmp], classify b = some (.arithAccImm op) := by
  decide +revert

/-- Settles O7: the patterns of the eight first bytes are the only ones that look at the parameter. -/
theorem unnamedFormsAreTheEightFirstBytes : Obligations.UnnamedFormsAreTheEightFirstBytes := by
  intro c win
  simp only [classify_unnamed_iff]
  cases hp : classify win.b0 with
  | none => simp [decodeWith, hp]
  | some p =>
    rw [decodeWith_of_classify hp, decodeWith_of_classify hp]
    cases p with
    | movMemAcc => simp [decodePattern]
    | arithAccImm op => cases op <;> simp [decodePattern]
    | _ => simp [decodePattern]

/-! ## First byte 0x82 (D14) -/

/-- A window with another first byte holds the same later bytes. -/
theorem Window.get_withFirst (win : Window) (b : Byte) (n : Nat) :
    { win with b0 := b }.get (n + 1) = win.get (n + 1) := rfl

theorem rmOperand_withFirst (win : Window) (b : Byte) (w : Width) :
    rmOperand { win with b0 := b } w = rmOperand win w := rfl

/-- The `s` bit of a one-byte group immediate has no effect (R100; entry 15). -/
theorem ArithOp.decoded_rmImm_byte (op : ArithOp) (c : Config) (rm : RM) (s s' : Bool) (v : Byte) :
    (op.rmImm rm (.byte s v)).decoded c = (op.rmImm rm (.byte s' v)).decoded c ∧
      ∀ t, exec (op.rmImm rm (.byte s v)) t = exec (op.rmImm rm (.byte s' v)) t := by
  cases op <;> exact ⟨rfl, fun _ => rfl⟩

/-- Settles O9: the two first bytes differ in the `s` bit, which has no effect on a one-byte immediate. -/
theorem firstByte82ActsAs80 : Obligations.FirstByte82ActsAs80 := by
  intro c win i hb h
  cases ho : arithOf (regField win.b1) with
  | none =>
    have hp : classify win.b0 = some .arithRmImm := by rw [hb]; decide
    simp [decodeWith_of_classify hp, decodePattern, ho] at h
  | some op =>
    rw [decodeWith_group (s := false) (w := .byte) (op := op) (hb.trans rfl) ho] at h
    cases h
    refine ⟨_, decodeWith_group (s := true) (w := .byte) (op := op) rfl ho, ?_⟩
    have imm (n : Nat) : { win with b0 := 0x82 }.get (2 + n) = win.get (2 + n) := by
      rw [Nat.add_comm]
      exact win.get_withFirst 0x82 (n + 1)
    simp only [rmOperand_withFirst, groupImmAt, imm]
    exact op.decoded_rmImm_byte ..

/-! ## The twenty jumps -/

theorem exists_jcc_of_range (b : Byte) : 0x70 ≤ b.toNat ∧ b.toNat ≤ 0x7F → b = 0b0111#4 ++ b.extractLsb' 0 4 := by
  decide +revert

theorem exists_loop_of_range (b : Byte) : 0xE0 ≤ b.toNat ∧ b.toNat ≤ 0xE3 → b = 0b111000#6 ++ b.extractLsb' 0 2 := by
  decide +revert

/-- Settles O13: each of the twenty first bytes is the pattern's fixed bits followed by a jump's number. -/
theorem jumpsAlwaysDecode : Obligations.JumpsAlwaysDecode := by
  rintro c win (h | h)
  · have jump := jccOf_isJump (win.b0.extractLsb' 0 4) win.b1
    exact ⟨_, decodeWith_jcc (exists_jcc_of_range _ h), jump.len, jump.operands c, jump.op⟩
  · have jump := loopOf_isJump (win.b0.extractLsb' 0 2) win.b1
    exact ⟨_, decodeWith_loop (exists_loop_of_range _ h), jump.len, jump.operands c, jump.op⟩

/-! ## Decoded MOV -/

theorem RM.width_of_fits {rm : RM} {w : Width} (h : rm.fits w = true) : rm.width = w := by
  simp only [RM.fits, Bool.and_eq_true, beq_iff_eq] at h
  exact h.2

/-- A well-formed MOV is one of the five operand pairs of R127, of one width (R63). -/
theorem movPair_of_wellFormed (c : Config) {i : Instr} (wf : i.WellFormed) (hop : i.op = .mov) :
    ∃ d s, i.operands c = (some d, some s) ∧ movKindsValid (some (kindOf d)) (some (kindOf s)) = true ∧
      opWidth d = opWidth s := by
  cases i
  case movRmReg rm r => exact ⟨_, _, rfl, by cases rm <;> rfl, congrArg some (RM.width_of_fits wf)⟩
  case movRegRm r rm => exact ⟨_, _, rfl, by cases rm <;> rfl, congrArg some (RM.width_of_fits wf).symm⟩
  case movRmImm rm i => exact ⟨_, _, rfl, by cases rm <;> rfl, congrArg some (RM.width_of_fits wf)⟩
  case movRegImm r i => exact ⟨_, _, rfl, rfl, congrArg some (beq_iff_eq.1 wf)⟩
  case movAccMem w a => exact ⟨_, _, rfl, rfl, congrArg some (regOf_width w 0)⟩
  case movMemAcc a w => exact ⟨_, _, rfl, rfl, congrArg some (regOf_width w 0).symm⟩
  all_goals cases hop

/-- Settles O14: what decodes is well formed. -/
theorem decodedMovPairsAreValid : Obligations.DecodedMovPairsAreValid := fun win i h =>
  movPair_of_wellFormed config (encodeOfDecodeIsConsumedBytes win i h).1

/-! ## Single words and bytes -/

/-- Settles O1: each word decodes, and has its length, by computation. -/
theorem spelledOutWordsDecode : Obligations.SpelledOutWordsDecode := by
  simp only [Obligations.SpelledOutWordsDecode, List.forall_mem_cons]
  exact ⟨⟨rfl, rfl⟩, ⟨rfl, rfl⟩, ⟨rfl, rfl⟩, ⟨rfl, rfl⟩, ⟨rfl, rfl⟩, ⟨rfl, rfl⟩, ⟨rfl, rfl⟩, ⟨rfl, rfl⟩, ⟨rfl, rfl⟩,
    by simp⟩

/-- Settles O12: the value of `sext8` as a number, below and from 0x80. -/
theorem groupImmediateIsSignExtended : Obligations.GroupImmediateIsSignExtended := by
  intro v
  have value : (sext8 v).toNat = if v.toNat < 0x80 then v.toNat else 0xFF00 + v.toNat := by decide +revert
  exact ⟨⟨sext8 v, rfl, value⟩, rfl⟩

end Sys2Proof
end

section
/-! PROOFS. The statements about the data memory (20_memory.md R53 to R57) and the flag update (41_arith.md R131). -/

namespace Sys2Proof.Machine

/-! ## A load after a store -/

theorem Memory.load_byte (c : Config) (m : Memory) (a : Word) : m.load c a .byte = .ok (zext8 (m.read a.toNat)) := rfl

/-- The index of the second byte of a word access decides its load. -/
theorem Memory.load_word {c : Config} {a : Word} {k : Nat} (h : secondByte c a = .ok k) (m : Memory) :
    m.load c a .word = .ok (joinBytes (m.read k) (m.read a.toNat)) := by
  simp only [Memory.load, h]

theorem Memory.store_word {c : Config} {a : Word} {k : Nat} (h : secondByte c a = .ok k) (m : Memory) (v : Word) :
    m.store c a .word v = .ok (Memory.write (m.write a.toNat (loByte v)) k (hiByte v)) := by
  simp only [Memory.store, h]

theorem Memory.load_word_error {c : Config} {a : Word} {f : Fault} (h : secondByte c a = .error f) (m : Memory) :
    m.load c a .word = .error f := by
  simp only [Memory.load, h]

theorem Memory.store_word_error {c : Config} {a : Word} {f : Fault} (h : secondByte c a = .error f) (m : Memory)
    (v : Word) : m.store c a .word v = .error f := by
  simp only [Memory.store, h]

theorem Memory.load_store {c : Config} {m m' : Memory} {a : Word} {w : Width} {v : Word} (hm : m.wf)
    (h : m.store c a w v = .ok m') : m'.load c a w = .ok (truncate w v) := by
  obtain ⟨_, low, high, _⟩ := Memory.store_spec hm h
  cases w with
  | byte => rw [Memory.load_byte, low, truncate]
  | word =>
    cases hk : secondByte c a with
    | error f => rw [Memory.store_word_error hk] at h; cases h
    | ok k => rw [Memory.load_word hk, low, high k rfl hk, joinBytes_hi_lo, truncate]

/-- Settles O17: what a store does, read by a load of the same width. -/
theorem loadAfterStore : Obligations.LoadAfterStore := by
  intro c m m' a w v hm h
  obtain ⟨wf, _, _, others⟩ := Memory.store_spec hm h
  exact ⟨wf, Memory.load_store hm h, others⟩

/-- Settles O18: below 0xFFFF the second byte of a word is the next offset's, at even and odd offsets alike. -/
theorem dataWordsAreLittleEndian : Obligations.DataWordsAreLittleEndian := by
  intro c m a v hm ha
  have second := secondByte_of_ne (c := c) ha
  have stored := Memory.store_word second m v
  obtain ⟨_, low, high, _⟩ := Memory.store_spec hm stored
  have next : (a + 1).toNat = a.toNat + 1 := by
    have : a.toNat ≠ 65535 := fun e => ha (BitVec.eq_of_toNat_eq e)
    have := a.isLt
    rw [BitVec.toNat_add, show (1 : Word).toNat = 1 from rfl]
    omega
  exact ⟨_, stored, by rw [Memory.load_byte, low], by rw [Memory.load_byte, next, high _ rfl second]⟩

/-- A word at offset 0xFFFF whose second byte is at `k`. -/
theorem Memory.last_word_at {c : Config} {m : Memory} {k : Nat} (h : secondByte c 0xFFFF = .ok k) (hm : m.wf) (v : Word) :
    m.load c 0xFFFF .word = .ok (joinBytes (m.read k) (m.read 0xFFFF)) ∧
      ∃ m', m.store c 0xFFFF .word v = .ok m' ∧ m'.read 0xFFFF = loByte v ∧ m'.read k = hiByte v := by
  have stored := Memory.store_word h m v
  obtain ⟨_, low, high, _⟩ := Memory.store_spec hm stored
  exact ⟨Memory.load_word h m, _, stored, low, high k rfl h⟩

/-- Settles O19: `secondByte_last` at each value of the parameter. -/
theorem wordAccessAtTheLastOffset : Obligations.WordAccessAtTheLastOffset := by
  intro c m v hm
  refine ⟨fun h => ?_, fun h => ?_, fun h => ?_⟩
  · have second : secondByte c 0xFFFF = .error (.outOfBounds 0xFFFF) := by rw [secondByte_last, h]
    exact ⟨Memory.load_word_error second m, Memory.store_word_error second m v⟩
  · exact Memory.last_word_at (by rw [secondByte_last, h]) hm v
  · exact Memory.last_word_at (by rw [secondByte_last, h]) hm v

/-! ## The canonical form is canonical -/

/-- Below its first entry a canonical memory reads as unlisted. -/
theorem Memory.wf.read_below {k : Nat} {b : Byte} {m : Memory} (h : Memory.wf ((k, b) :: m)) {a : Nat} (ha : a < k) :
    Memory.read ((k, b) :: m) a = Memory.unlisted := by
  refine Memory.read_of_not_listed fun e he => ?_
  rcases List.mem_cons.1 he with rfl | he
  · exact ha.ne'
  · exact (ha.trans (h.above e he)).ne'

theorem Memory.wf.head_ne {k : Nat} {b : Byte} {m : Memory} (h : Memory.wf ((k, b) :: m)) : b ≠ Memory.unlisted :=
  (h.2 (k, b) (by simp)).2

/-- The first entry is the lowest address that does not read as unlisted, so another memory that reads alike does not
begin above it. -/
theorem Memory.wf.head_le {k k' : Nat} {b b' : Byte} {m m' : Memory} (h : Memory.wf ((k, b) :: m))
    (h' : Memory.wf ((k', b') :: m')) (alike : Memory.read ((k, b) :: m) k = Memory.read ((k', b') :: m') k) : k' ≤ k := by
  by_contra hlt
  rw [Memory.read_entry, if_pos rfl, h'.read_below (Nat.lt_of_not_le hlt)] at alike
  exact h.head_ne alike

theorem Memory.eq_of_read_eq {m m' : Memory} (h : m.wf) (h' : m'.wf) (alike : ∀ a, m.read a = m'.read a) : m = m' := by
  induction m generalizing m' with
  | nil =>
    cases m' with
    | nil => rfl
    | cons e' m' =>
      have first := alike e'.1
      rw [Memory.read_nil, Memory.read_entry, if_pos rfl] at first
      exact absurd first.symm h'.head_ne
  | cons e m ih =>
    obtain ⟨k, b⟩ := e
    cases m' with
    | nil =>
      have first := alike k
      rw [Memory.read_nil, Memory.read_entry, if_pos rfl] at first
      exact absurd first h.head_ne
    | cons e' m' =>
      obtain ⟨k', b'⟩ := e'
      obtain rfl : k = k' := Nat.le_antisymm (h'.head_le h (alike k').symm) (h.head_le h' (alike k))
      have first := alike k
      rw [Memory.read_entry, Memory.read_entry, if_pos rfl, if_pos rfl] at first
      have tails : ∀ a, Memory.read m a = Memory.read m' a := by
        intro a
        by_cases ha : a = k
        · rw [Memory.read_of_not_listed fun e he => ha ▸ (h.above e he).ne',
            Memory.read_of_not_listed fun e he => ha ▸ (h'.above e he).ne']
        · simpa [ha] using alike a
      rw [first, ih h.tail h'.tail tails]

/-- Settles O20: `Memory.eq_of_read_eq`, by induction on one list. -/
theorem canonicalMemoriesThatReadAlikeAreEqual : Obligations.CanonicalMemoriesThatReadAlikeAreEqual :=
  fun _ _ h h' => Memory.eq_of_read_eq h h'

/-! ## The flag update -/

/-- A zero result has a clear top bit. -/
theorem State.setFlags_not_both (s : State) (res : Word) (w : Width) :
    ¬((s.setFlags res w).zf ∧ (s.setFlags res w).sf) := by
  rintro ⟨zf, sf⟩
  rw [State.setFlags_zf, beq_iff_eq] at zf
  rw [State.setFlags_sf, zf] at sf
  simp at sf

/-- Settles O23: the flags by the laws of `State.setFlags`, the rest by its definition. -/
theorem flagUpdateFollowsTheTruncatedResult : Obligations.FlagUpdateFollowsTheTruncatedResult := fun s res w _ =>
  ⟨s.setFlags_flagsOf s res w rfl, s.setFlags_reserved res w, s.setFlags_not_both res w, rfl, rfl, rfl, rfl, rfl⟩

end Sys2Proof.Machine
end

section
/-! PROOFS. The statements about MOV (40_mov.md). -/

namespace Sys2Proof.Machine

/-! ## Writing a register a value of its width -/

theorem State.regWrite_wrote_of_fits (s : State) {d : Reg} {w : Width} {v : Word} (hw : d.width = w)
    (h : truncate w v = v) : WroteReg d v s (s.regWrite d v) := by
  have wrote := s.regWrite_wrote d v
  rwa [hw, h] at wrote

@[simp] theorem accumulator_width (w : Width) : (accumulator w).width = w := regOf_width w 0

/-- Settles O24: `mov_reg_reg` and `mov_reg_imm`, under either encoding. -/
theorem movToRegisterCompletes : Obligations.MovToRegisterCompletes := by
  intro s d r i
  refine ⟨fun h => ?_, fun h => ?_⟩
  · have run : s.settle (mov config (.rm (.reg d)) (.rm (.reg r)) s) = .next (s.regWrite d (s.regRead r)) := by
      rw [mov_reg_reg config s h, State.settle_ok]
    have wrote := s.regWrite_wrote_of_fits h (s.truncate_regRead r)
    exact ⟨⟨_, run, wrote⟩, ⟨_, run, wrote⟩⟩
  · have run : s.settle (mov config (.rm (.reg d)) (.imm i) s) = .next (s.regWrite d (immValue i)) := by
      rw [mov_reg_imm config s h, State.settle_ok]
    have wrote := s.regWrite_wrote_of_fits h (truncate_immValue i)
    exact ⟨⟨_, run, wrote⟩, ⟨_, run, wrote⟩⟩

/-- A load in range completes. -/
theorem settle_mov_load (s : State) {d : Reg} {m : MemOperand} (h : d.width = m.width)
    (hr : InRange m.width (s.ea m.ref)) :
    ∃ t, s.settle (mov config (.rm (.reg d)) (.rm (.mem m)) s) = .next t ∧
      WroteReg d (s.bytesAt m.width (s.ea m.ref)) s t :=
  ⟨_, by rw [mov_reg_mem config s h hr, State.settle_ok],
    s.regWrite_wrote_of_fits h (s.truncate_bytesAt _ _)⟩

/-- Settles O25: both forms are a load to a register; `movAccMem` loads from a direct address. -/
theorem movLoadCompletes : Obligations.MovLoadCompletes := fun s =>
  ⟨fun _ _ h hr => settle_mov_load s h hr,
    fun w a hr => settle_mov_load s (m := ⟨.direct a, w⟩) (accumulator_width w) hr⟩

theorem settle_operandWrite_mem {s : State} (hm : s.mem.wf) {m : MemOperand} (v : Word)
    (hr : InRange m.width (s.ea m.ref)) :
    ∃ t, s.settle (s.operandWrite config (.mem m) v) = .next t ∧ Stored m.width (s.ea m.ref) v s t := by
  obtain ⟨t, ht, stored⟩ := State.operandWrite_stored (c := config) hm m v hr
  exact ⟨t, by rw [ht, State.settle_ok], stored⟩

theorem settle_mov_storeReg {s : State} (hm : s.mem.wf) {m : MemOperand} {r : Reg} (h : m.width = r.width)
    (hr : InRange m.width (s.ea m.ref)) :
    ∃ t, s.settle (mov config (.rm (.mem m)) (.rm (.reg r)) s) = .next t ∧
      Stored m.width (s.ea m.ref) (s.regRead r) s t := by
  rw [mov_mem_reg config s h]
  exact settle_operandWrite_mem hm _ hr

/-- Settles O26: all three forms write a memory operand, in range; `movMemAcc` at a direct address. -/
theorem movStoreCompletes : Obligations.MovStoreCompletes := by
  intro s hm
  refine ⟨fun m r h hr => settle_mov_storeReg hm h hr, fun m i h hr => ?_, fun w a hr =>
    settle_mov_storeReg hm (m := ⟨.direct a, w⟩) (accumulator_width w).symm hr⟩
  show ∃ t, s.settle (mov config (.rm (.mem m)) (.imm i) s) = _ ∧ _
  rw [mov_mem_imm config s h]
  exact settle_operandWrite_mem hm _ hr

/-! ## A word at the last offset (R57, D8) -/

theorem secondByte_last_config : secondByte config 0xFFFF = .error (.outOfBounds 0xFFFF) := rfl

theorem mov_load_last (s : State) {d : Reg} {m : MemOperand} (hd : d.width = .word) (hw : m.width = .word)
    (ha : s.ea m.ref = 0xFFFF) : mov config (.rm (.reg d)) (.rm (.mem m)) s = .error (.outOfBounds 0xFFFF) := by
  simp only [mov, movTarget, hd, hw, reduceIte, State.operandRead_mem, ha,
    Memory.load_word_error secondByte_last_config]

theorem State.operandWrite_last (s : State) {m : MemOperand} (v : Word) (hw : m.width = .word)
    (ha : s.ea m.ref = 0xFFFF) : s.operandWrite config (.mem m) v = .error (.outOfBounds 0xFFFF) := by
  simp only [State.operandWrite, hw, ha, Memory.store_word_error secondByte_last_config]

theorem mov_storeReg_last (s : State) {m : MemOperand} {r : Reg} (hw : m.width = .word) (hr : r.width = .word)
    (ha : s.ea m.ref = 0xFFFF) : mov config (.rm (.mem m)) (.rm (.reg r)) s = .error (.outOfBounds 0xFFFF) := by
  rw [mov_mem_reg config s (hw.trans hr.symm), s.operandWrite_last _ hw ha]

theorem mov_storeImm_last (s : State) {m : MemOperand} {i : Imm} (hw : m.width = .word) (hi : i.width = .word)
    (ha : s.ea m.ref = 0xFFFF) : mov config (.rm (.mem m)) (.imm i) s = .error (.outOfBounds 0xFFFF) := by
  rw [mov_mem_imm config s (hw.trans hi.symm), s.operandWrite_last _ hw ha]

/-- Settles O27: the load and both stores, `movAccMem` and `movMemAcc` at a direct address. -/
theorem movWordAtLastOffsetRaisesOutOfBounds : Obligations.MovWordAtLastOffsetRaisesOutOfBounds := by
  intro s
  refine ⟨fun m r i hm hr hi ha => ⟨?_, ?_, ?_⟩, ?_, ?_⟩
  · exact congrArg s.settle (mov_load_last s hr hm ha)
  · exact congrArg s.settle (mov_storeReg_last s hm hr ha)
  · exact congrArg s.settle (mov_storeImm_last s hm hi ha)
  · exact congrArg s.settle (mov_load_last s (m := ⟨.direct 0xFFFF, .word⟩) (accumulator_width .word) rfl rfl)
  · exact congrArg s.settle (mov_storeReg_last s (m := ⟨.direct 0xFFFF, .word⟩) rfl (accumulator_width .word) rfl)

/-! ## Invalid pairs (R127) -/

/-- `movTarget` answers for the five pairs of R127 at one width only. -/
theorem movTarget_eq_none {dst src : Operand}
    (h : ¬(movKindsValid (some (kindOf dst)) (some (kindOf src)) = true ∧ opWidth dst = opWidth src)) :
    movTarget dst src = none := by
  rcases dst with (d | m) | i | k
  · rcases src with (r | m) | i | k
    · exact if_neg fun e => h ⟨rfl, congrArg some e⟩
    · exact if_neg fun e => h ⟨rfl, congrArg some e⟩
    · exact if_neg fun e => h ⟨rfl, congrArg some e⟩
    · rfl
  · rcases src with (r | m) | i | k
    · exact if_neg fun e => h ⟨rfl, congrArg some e⟩
    · rfl
    · exact if_neg fun e => h ⟨rfl, congrArg some e⟩
    · rfl
  · rfl
  · rfl

/-- Settles O28: an absent operand reaches no meaning, and an invalid pair has no target. -/
theorem handBuiltInvalidMovPairsRaise : Obligations.HandBuiltInvalidMovPairsRaise := by
  intro c s n dst src h
  cases dst with
  | none => rfl
  | some dst =>
    cases src with
    | none => rfl
    | some src =>
      show mov c dst src s = _
      simp only [mov, movTarget_eq_none h]
      rfl

end Sys2Proof.Machine
end

section
/-! PROOFS. The statements about ADD, SUB and CMP (41_arith.md R133 to R146) and the jumps (42_jumps.md). -/

namespace Sys2Proof.Machine

/-! ## What an ALU operation on a register leaves -/

/-- The flags and the value of a result, as numbers: the ALU is exact modulo the width. -/
theorem State.computed_flagsOf (s : State) (op : ArithOp) (d : Reg) (b : Word) :
    FlagsOf d.width (exactResult op (s.regRead d) b d.width) s (s.computed op d b) := by
  rw [← aluIsExactArithmeticModuloTheWidth]
  exact s.setFlags_flagsOf _ _ _ (State.writeBack_flags ..)

/-- ADD and SUB store the result, which fits the width of the register. -/
theorem State.computed_of_writes (s : State) {op : ArithOp} (hop : op ≠ .cmp) (d : Reg) (b : Word) :
    Computed op d b s (s.computed op d b) := by
  have write : ∀ v, s.writeBack op d v = s.regWrite d v := by
    intro v
    cases op with
    | add | sub => rfl
    | cmp => exact absurd rfl hop
  have wrote := s.regWrite_wrote d (alu op (s.regRead d) b d.width)
  exact {
    value := by
      show ((s.writeBack op d _).regRead d).toNat = _
      rw [write, wrote.value, truncate_alu, aluIsExactArithmeticModuloTheWidth]
    others := fun r hr => by
      show (s.writeBack op d _).regRead r = _
      rw [write, wrote.others r hr]
    flags := s.computed_flagsOf op d b
    pc := State.writeBack_pc ..
    mem := State.writeBack_mem ..
    status := State.writeBack_status ..
    image := State.writeBack_image .. }

/-- CMP discards the result. -/
theorem State.computed_compared (s : State) (d : Reg) (b : Word) : Compared d b s (s.computed .cmp d b) where
  flags  := s.computed_flagsOf .cmp d b
  regs   := rfl
  pc     := rfl
  mem    := rfl
  status := rfl
  image  := rfl

/-- Settles O29: all eight forms run an ALU operation on a register, `State.computed`. -/
theorem addSubOnRegistersComplete : Obligations.AddSubOnRegistersComplete := by
  intro s d r g i
  have add (d : Reg) (b : Word) := s.computed_of_writes (op := .add) (by decide) d b
  have sub (d : Reg) (b : Word) := s.computed_of_writes (op := .sub) (by decide) d b
  exact ⟨⟨_, rfl, add ..⟩, ⟨_, rfl, add ..⟩, ⟨_, rfl, add ..⟩, ⟨_, rfl, add ..⟩,
    ⟨_, rfl, sub ..⟩, ⟨_, rfl, sub ..⟩, ⟨_, rfl, sub ..⟩, ⟨_, rfl, sub ..⟩⟩

/-- Settles O30: all four forms run the comparison on a register. -/
theorem cmpOnRegistersCompletes : Obligations.CmpOnRegistersCompletes := fun s _ _ _ _ =>
  ⟨⟨_, rfl, s.computed_compared ..⟩, ⟨_, rfl, s.computed_compared ..⟩, ⟨_, rfl, s.computed_compared ..⟩,
    ⟨_, rfl, s.computed_compared ..⟩⟩

/-! ## The admission table (R133) -/

/-- The effect R134 gives an operation: ADD and SUB compute, CMP compares. -/
def ArithEffect (op : ArithOp) (d : Reg) (b : Word) (s t : State) : Prop :=
  match op with
  | .add => Computed .add d b s t
  | .sub => Computed .sub d b s t
  | .cmp => Compared d b s t

theorem State.computed_effect (s : State) (op : ArithOp) (d : Reg) (b : Word) :
    ArithEffect op d b s (s.computed op d b) := by
  cases op with
  | add => exact s.computed_of_writes (by decide) d b
  | sub => exact s.computed_of_writes (by decide) d b
  | cmp => exact s.computed_compared d b

/-- The tag of an ALU operation selects that operation. -/
theorem execDecoded_arith (c : Config) (op : ArithOp) (n : Nat) (dst src : Operand) (s : State) :
    execDecoded c ⟨arithTag op, n, some dst, some src⟩ s = arith c op dst src s := by
  cases op <;> rfl

theorem arith_mem_source_fault {c : Config} (h : c.arithMemSource = .fault) (op : ArithOp) (s : State) (d : Reg)
    (m : MemOperand) : arith c op (.rm (.reg d)) (.rm (.mem m)) s =
      .error (.unsupportedOperandCombination (arithTag op) (some .register) (some .memory)) := by
  have refused : arithSourceOk c (.rm (.mem m)) = false := by rw [arithSourceOk, h]; rfl
  simp only [arith, refused]
  rfl

theorem arith_mem_source_read {c : Config} (h : c.arithMemSource = .read) (op : ArithOp) (s : State) (d : Reg)
    (m : MemOperand) : arith c op (.rm (.reg d)) (.rm (.mem m)) s =
      (s.mem.load c (s.ea m.ref) m.width).map (s.computed op d) := by
  have admitted : arithSourceOk c (.rm (.mem m)) = true := by rw [arithSourceOk, h]; rfl
  simp only [arith, admitted, State.operandRead_mem]
  cases s.mem.load c (s.ea m.ref) m.width <;> rfl

/-- Settles O31: a register destination computes with the value its source is read to; the refused pairs fault by
definition. -/
theorem arithAdmissionTable : Obligations.ArithAdmissionTable := by
  intro c op n s d r m i
  simp only [execDecoded_arith]
  refine ⟨⟨_, rfl, s.computed_effect op d _⟩, ⟨_, rfl, s.computed_effect op d _⟩, fun h =>
    arith_mem_source_fault h op s d m, fun h => ⟨fun f hf => ?_, fun v hv => ?_⟩, rfl, rfl⟩
  · rw [arith_mem_source_read h, hf]; rfl
  · exact ⟨_, by rw [arith_mem_source_read h, hv]; rfl, s.computed_effect op d v⟩

/-- Settles O32: `arith` refuses each of the nine pairs by definition. -/
theorem arithOnMemoryRaises : Obligations.ArithOnMemoryRaises := fun _ _ _ _ =>
  ⟨rfl, rfl, rfl, rfl, rfl, rfl, rfl, rfl, rfl⟩

/-! ## Equal operands -/

/-- The value of a register fits its width. -/
theorem State.regRead_lt (s : State) (r : Reg) : (s.regRead r).toNat < 2 ^ widthBits r.width := by
  rw [← s.truncate_regRead r, truncate_toNat]
  exact Nat.mod_lt _ (by positivity)

/-- A difference is zero exactly when the operands are equal, both fitting the width. -/
theorem exactResult_cmp_eq_zero_iff {a b : Word} {w : Width} (ha : a.toNat < 2 ^ widthBits w)
    (hb : b.toNat < 2 ^ widthBits w) : exactResult .cmp a b w = 0 ↔ a = b := by
  rw [← BitVec.toNat_inj]
  cases w with
  | byte => simp only [exactResult, widthBits] at *; omega
  | word => simp only [exactResult, widthBits] at *; omega

/-- Settles O33: the difference is zero, and its effect is that of any SUB. -/
theorem subOfARegisterFromItselfIsZero : Obligations.SubOfARegisterFromItselfIsZero := by
  intro s r i hi
  have run : exec i s = .next (s.computed .sub r (s.regRead r)) := by
    simp only [List.mem_cons, List.not_mem_nil, or_false] at hi
    rcases hi with rfl | rfl <;> rfl
  have zero : exactResult .sub (s.regRead r) (s.regRead r) r.width = 0 := by simp [exactResult]
  obtain ⟨value, _, flags, _⟩ := s.computed_of_writes (op := .sub) (by decide) r (s.regRead r)
  rw [zero] at value flags
  exact ⟨_, run, BitVec.eq_of_toNat_eq value, flags.zf, flags.sf.trans (Nat.zero_testBit _)⟩

/-- Settles O34: both encodings compare, and the flags are those of the difference. -/
theorem cmpSetsZeroFlagExactlyOnEqual : Obligations.CmpSetsZeroFlagExactlyOnEqual := by
  intro s d r h
  have zero := exactResult_cmp_eq_zero_iff (s.regRead_lt d) (h ▸ s.regRead_lt r)
  have flags := s.computed_flagsOf .cmp d (s.regRead r)
  refine ⟨_, rfl, rfl, ?_, fun e => ?_⟩
  · exact (Bool.eq_iff_iff.1 flags.zf).trans (decide_eq_true_iff.trans zero)
  · exact flags.sf.trans (by rw [zero.2 e, Nat.zero_testBit])

/-! ## Jumps -/

theorem jumpNotEqual_of_zf (rel : Byte) {s : State} (h : s.zf = true) : jumpNotEqual rel s = s := by
  rw [jumpNotEqual, if_pos h]

theorem jumpNotEqual_of_not_zf (rel : Byte) {s : State} (h : s.zf = false) :
    jumpNotEqual rel s = { s with pc := jumpTarget s.pc rel } := by
  rw [jumpNotEqual, if_neg (by simp [h])]

/-- The target of a jump, summed on integers (R161). -/
theorem jumpTarget_toNat (pc : Word) (rel : Byte) :
    ((jumpTarget pc rel).toNat : Int) = (pc.toNat + rel.toInt) % 65536 := by
  rw [jumpTarget, toNat_add_eq_toInt_emod, sext8_toInt]

/-- Settles O35: by the value of ZF. -/
theorem jneJumpsExactlyWhenZeroFlagClear : Obligations.JneJumpsExactlyWhenZeroFlagClear := by
  intro s rel
  refine ⟨jumpNotEqual rel s, rfl, ?_⟩
  cases zf : s.zf with
  | true =>
    rw [jumpNotEqual_of_zf rel zf]
    exact ⟨nofun, fun _ => rfl, rfl, rfl, rfl, rfl, rfl⟩
  | false =>
    rw [jumpNotEqual_of_not_zf rel zf]
    exact ⟨fun _ => jumpTarget_toNat s.pc rel, nofun, rfl, rfl, rfl, rfl, rfl⟩

/-- Settles O36: each arm is `decodeOnly` by definition. -/
theorem decodeOnlyJumpsRaise : Obligations.DecodeOnlyJumpsRaise := fun _ _ =>
  ⟨rfl, rfl, rfl, rfl, rfl, rfl, rfl, rfl, rfl, rfl, rfl, rfl, rfl, rfl, rfl, rfl, rfl, rfl, rfl⟩

end Sys2Proof.Machine
end

section
/-! PROOFS. The rules over all instructions: what an execution changes (10_state.md R29, 20_memory.md R58, R70), that none
but a load depends on the memory (R58), and that `exec` is the execution of the decoded record (R40). -/

namespace Sys2Proof.Machine

/-! ## What an execution leaves unchanged -/

@[simp] theorem jumpNotEqual_mem (rel : Byte) (s : State) : (jumpNotEqual rel s).mem = s.mem := by
  unfold jumpNotEqual; split <;> rfl
@[simp] theorem jumpNotEqual_status (rel : Byte) (s : State) : (jumpNotEqual rel s).status = s.status := by
  unfold jumpNotEqual; split <;> rfl
@[simp] theorem jumpNotEqual_image (rel : Byte) (s : State) : (jumpNotEqual rel s).image = s.image := by
  unfold jumpNotEqual; split <;> rfl

@[simp] theorem State.computed_mem (s : State) (op : ArithOp) (d : Reg) (b : Word) : (s.computed op d b).mem = s.mem :=
  State.writeBack_mem ..
@[simp] theorem State.computed_pc (s : State) (op : ArithOp) (d : Reg) (b : Word) : (s.computed op d b).pc = s.pc :=
  State.writeBack_pc ..
@[simp] theorem State.computed_status (s : State) (op : ArithOp) (d : Reg) (b : Word) :
    (s.computed op d b).status = s.status :=
  State.writeBack_status ..
@[simp] theorem State.computed_image (s : State) (op : ArithOp) (d : Reg) (b : Word) :
    (s.computed op d b).image = s.image :=
  State.writeBack_image ..

/-- The states an execution of `i` from `s` can end in: `ExecEffect`, one case each, with the end state in place. -/
inductive ExecEnd (i : Instr) (s : State) : State → Prop
  | wrote (d : Reg) (v : Word) (hop : i.op = .mov) : ExecEnd i s (s.regWrite d v)
  | stored (m : MemOperand) (v : Word) (mem : Memory) (hm : storesTo i = some m)
      (hs : s.mem.store config (s.ea m.ref) m.width v = .ok mem) : ExecEnd i s { s with mem := mem }
  | computed (op : ArithOp) (d : Reg) (b : Word) (hop : i.op = arithTag op) : ExecEnd i s (s.computed op d b)
  | jumped (rel : Byte) (hi : i = .jne rel) : ExecEnd i s (jumpNotEqual rel s)
  | raised (f : Fault)
      (cause : (∃ dst src, f = .unsupportedOperandCombination i.op dst src) ∨ f = .outOfBounds 0xFFFF) :
    ExecEnd i s (s.raise f)

theorem exec_end {i : Instr} {s t : State} (h : exec i s = .next t) : ExecEnd i s t := by
  rcases exec_effect i s with ⟨d, v, hop, hx⟩ | ⟨m, v, mem, hm, hs, hx⟩ | ⟨op, d, b, hop, hx⟩ | ⟨rel, hi, hx⟩ |
      ⟨f, hx, cause⟩ <;>
    cases h.symm.trans hx
  · exact .wrote d v hop
  · exact .stored m v mem hm hs
  · exact .computed op d b hop
  · exact .jumped rel hi
  · exact .raised f cause

/-- An execution leaves the memory, or is a MOV that stores to it. -/
theorem exec_mem {i : Instr} {s t : State} (h : exec i s = .next t) :
    t.mem = s.mem ∨ ∃ m v, storesTo i = some m ∧ s.mem.store config (s.ea m.ref) m.width v = .ok t.mem := by
  cases exec_end h with
  | stored m v mem hm hs => exact .inr ⟨m, v, hm, hs⟩
  | wrote | raised => exact .inl rfl
  | computed => exact .inl (State.computed_mem ..)
  | jumped => exact .inl (jumpNotEqual_mem ..)

/-- Settles O38: only a store ends with another memory, `Memory.store_spec` says where, and at 0xFFFF it faults. -/
theorem onlyMovStoresChangeMemory : Obligations.OnlyMovStoresChangeMemory := by
  intro i s t hwf h
  rcases exec_mem h with same | ⟨m, v, hm, stored⟩
  · exact ⟨fun _ => same, fun _ _ _ _ _ => by rw [same], fun _ _ _ _ => same⟩
  · refine ⟨fun none => ?_, fun m' hm' k low high => ?_, fun m' hm' word last => ?_⟩
    · rw [none] at hm; cases hm
    · cases hm.symm.trans hm'
      obtain ⟨_, _, _, others⟩ := Memory.store_spec hwf stored
      refine others k low fun word second => ?_
      have ne : s.ea m.ref ≠ 0xFFFF := by
        intro last
        rw [last, secondByte_last_config] at second
        cases second
      rw [secondByte_of_ne ne] at second
      exact high ⟨word, (Except.ok.inj second).symm⟩
    · cases hm.symm.trans hm'
      rw [word, last, Memory.store_word_error secondByte_last_config] at stored
      cases stored

/-- Settles O40: of the ends of an execution only a jump has another pc, and none another image. -/
theorem onlyJneWritesPc : Obligations.OnlyJneWritesPc := by
  intro i s t h
  cases exec_end h with
  | wrote | stored | raised => exact ⟨fun _ => rfl, rfl⟩
  | computed => exact ⟨fun _ => State.computed_pc .., State.computed_image ..⟩
  | jumped rel hi => exact ⟨fun hop => absurd (hi ▸ rfl) hop, jumpNotEqual_image ..⟩

/-- Settles O41: each of the 38 arms is, by definition, the execution its tag and its decoded operands select. -/
theorem execIsExecutionOfTheDecodedRecord : Obligations.ExecIsExecutionOfTheDecodedRecord := by
  intro i s
  cases i <;> rfl

/-! ## Running from a state with another memory (R58) -/

/-- `s` with the data memory `m`. -/
def State.withMem (s : State) (m : Memory) : State := { s with mem := m }

/-- `s` and `t` agree in all but the data memory (and the program image, which no instruction changes). -/
structure AlikeButMem (s t : State) : Prop where
  regs   : t.regs = s.regs
  flags  : t.flags = s.flags
  pc     : t.pc = s.pc
  status : t.status = s.status

/-- Two executions end alike but for the data memory: both in a state, or both with one fault. -/
def AlikeResults : Result → Result → Prop
  | .ok t, .ok t'       => AlikeButMem t t'
  | .error f, .error f' => f = f'
  | _, _                => False

theorem State.settle_alike (s : State) (m : Memory) {x x' : Result} (h : AlikeResults x x') :
    ∃ t t', s.settle x = .next t ∧ (s.withMem m).settle x' = .next t' ∧ AlikeButMem t t' := by
  cases x with
  | ok t =>
    cases x' with
    | ok t' => exact ⟨t, t', rfl, rfl, h⟩
    | error f' => exact h.elim
  | error f =>
    cases x' with
    | ok t' => exact h.elim
    | error f' => cases h; exact ⟨_, _, rfl, rfl, rfl, rfl, rfl, rfl⟩

@[simp] theorem State.ea_withMem (s : State) (m : Memory) (r : MemRef) : (s.withMem m).ea r = s.ea r := by
  cases r <;> rfl

/-- A source that is no memory operand is read alike from any memory. -/
theorem State.operandRead_withMem (c : Config) (s : State) (m : Memory) {src : Operand} (h : ∀ o, src ≠ .rm (.mem o)) :
    (s.withMem m).operandRead c src = s.operandRead c src := by
  rcases src with (r | o) | i | k
  case rm.mem => exact absurd rfl (h o)
  all_goals rfl

/-- Whether a store faults does not depend on the memory. -/
theorem State.operandWrite_withMem (c : Config) (s : State) (m : Memory) (d : RM) (v : Word) :
    AlikeResults (s.operandWrite c d v) ((s.withMem m).operandWrite c d v) := by
  cases d with
  | reg r => exact ⟨rfl, rfl, rfl, rfl⟩
  | mem o =>
    simp only [State.operandWrite, State.ea_withMem]
    cases hw : o.width with
    | byte => exact ⟨rfl, rfl, rfl, rfl⟩
    | word =>
      cases hk : secondByte c (s.ea o.ref) with
      | error f =>
        rw [Memory.store_word_error hk, Memory.store_word_error hk]
        exact rfl
      | ok k =>
        rw [Memory.store_word hk, Memory.store_word hk]
        exact ⟨rfl, rfl, rfl, rfl⟩

theorem mov_withMem (c : Config) (dst : Operand) {src : Operand} (s : State) (m : Memory) (h : ∀ o, src ≠ .rm (.mem o)) :
    AlikeResults (mov c dst src s) (mov c dst src (s.withMem m)) := by
  simp only [mov, State.operandRead_withMem c s m h]
  cases movTarget dst src with
  | none => exact rfl
  | some d =>
    cases s.operandRead c src with
    | error f => exact rfl
    | ok v => exact s.operandWrite_withMem c m d v

/-- An ALU operation does not read memory (D12): a memory source is refused. -/
theorem arith_withMem (op : ArithOp) (dst src : Operand) (s : State) (m : Memory) :
    AlikeResults (arith config op dst src s) (arith config op dst src (s.withMem m)) := by
  simp only [arith]
  split
  · next r admitted =>
    have source : ∀ o, src ≠ .rm (.mem o) := by
      rintro o rfl
      cases admitted
    rw [State.operandRead_withMem config s m source]
    cases s.operandRead config src with
    | error f => exact rfl
    | ok b => cases op <;> exact ⟨rfl, rfl, rfl, rfl⟩
  · exact rfl

theorem jumpNotEqual_withMem (rel : Byte) (s : State) (m : Memory) :
    AlikeButMem (jumpNotEqual rel s) (jumpNotEqual rel (s.withMem m)) := by
  have zf : (s.withMem m).zf = s.zf := rfl
  unfold jumpNotEqual
  rw [zf]
  split <;> exact ⟨rfl, rfl, rfl, rfl⟩

/-- A MOV with a memory source is one that loads. -/
theorem loadsFrom_of_source {i : Instr} {dst : Operand} {o : MemOperand} (hop : i.op = .mov)
    (h : i.operands config = (some dst, some (.rm (.mem o)))) : loadsFrom i = some o := by
  cases i
  case movRmReg | movRmImm | movRegImm | movMemAcc => cases h
  case movRegRm => cases h; rfl
  case movAccMem => cases h; rfl
  all_goals cases hop

/-- Settles O39: two runs of each shape of execution, from memories that may differ, end alike. -/
theorem onlyMovLoadsReadMemory : Obligations.OnlyMovLoadsReadMemory := by
  intro i s m hload
  suffices alike : ∃ t t', exec i s = .next t ∧ exec i (s.withMem m) = .next t' ∧ AlikeButMem t t' by
    obtain ⟨t, t', ht, ht', regs, flags, pc, status⟩ := alike
    exact ⟨t, t', ht, ht', regs, flags, pc, status⟩
  cases exec_shape i with
  | mov dst src hop operands run =>
    have source : ∀ o, src ≠ .rm (.mem o) := by
      rintro o rfl
      rw [loadsFrom_of_source hop operands] at hload
      cases hload
    rw [run, run]
    exact s.settle_alike m (mov_withMem config dst s m source)
  | arith op dst src _ _ run =>
    rw [run, run]
    exact s.settle_alike m (arith_withMem op dst src s m)
  | jne rel eq =>
    subst eq
    exact ⟨_, _, rfl, rfl, jumpNotEqual_withMem rel s m⟩
  | decodeOnly rel _ _ run =>
    rw [run, run]
    exact s.settle_alike m (x := decodeOnly i.op rel) rfl

end Sys2Proof.Machine
end

section
/-! PROOFS. The statements about the step (10_state.md R40), its ends and faults (60_exceptions.md), the invariant, reset
and the host's interface. -/

namespace Sys2Proof.Machine

/-! ## One step of a running machine, case by case -/

/-- Inside the image the window at pc decides: an instruction that decodes is executed, with pc advanced past it. -/
theorem step_of_decode {s : State} {i : Instr} (hrun : s.status = .running) (hlen : s.progLen ≤ maxProgLen)
    (hpc : s.pc.toNat < s.progLen) (hd : decode (fetch s.image s.pc) = .ok i) : step s = exec i (s.advance i.len) := by
  simp only [step, cycle, hrun, hd]
  rw [if_neg (Nat.not_lt.2 hlen), if_neg (Nat.not_le.2 hpc)]

theorem step_of_decode_error {s : State} {e : DecodeError} (hrun : s.status = .running) (hlen : s.progLen ≤ maxProgLen)
    (hpc : s.pc.toNat < s.progLen) (hd : decode (fetch s.image s.pc) = .error e) :
    step s = .next (s.raise (decodeFault s.pc e)) := by
  simp only [step, cycle, hrun, hd]
  rw [if_neg (Nat.not_lt.2 hlen), if_neg (Nat.not_le.2 hpc)]

theorem step_of_end {s : State} (hrun : s.status = .running) (hlen : s.progLen ≤ maxProgLen)
    (hpc : s.progLen ≤ s.pc.toNat) : step s = .next { s with status := .halted } := by
  simp only [step, cycle, hrun]
  rw [if_neg (Nat.not_lt.2 hlen), if_pos hpc]

theorem step_of_not_running {s : State} (h : s.status ≠ .running) : step s = .next s := by
  rcases step_cases s with ⟨_, hx⟩ | ⟨hrun, _⟩ | ⟨hrun, _⟩ | ⟨hrun, _⟩ | ⟨hrun, _⟩
  case inl => exact hx
  all_goals exact absurd hrun h

/-- The states a step from `s` can end in: `step_cases`, one case each but for the refusal, with the end state in
place. -/
inductive StepEnd (s : State) : State → Prop
  | stopped (h : s.status ≠ .running) : StepEnd s s
  | halted (hpc : s.progLen ≤ s.pc.toNat) : StepEnd s { s with status := .halted }
  | refusedOpcode (b0 b1 : Byte) : StepEnd s (s.raise (.unsupportedOpcode b0 b1 s.pc))
  | executed (i : Instr) (t : State) (hrun : s.status = .running) (hd : decode (fetch s.image s.pc) = .ok i)
      (ht : exec i (s.advance i.len) = .next t) : StepEnd s t

theorem step_end {s t : State} (h : step s = .next t) : StepEnd s t := by
  rcases step_cases s with ⟨hs, hx⟩ | ⟨_, _, hx⟩ | ⟨_, hpc, hx⟩ | ⟨_, b0, b1, _, hx⟩ | ⟨hrun, _, _, i, hd, hx⟩
  case inr.inr.inr.inr => exact .executed i t hrun hd (hx.symm.trans h)
  all_goals cases h.symm.trans hx
  · exact .stopped hs
  · exact .halted hpc
  · exact .refusedOpcode b0 b1

/-- Settles O42: the case of `cycle` in which the window decodes. -/
theorem stepRunsTheDecodedInstruction : Obligations.StepRunsTheDecodedInstruction :=
  fun _ _ => step_of_decode

/-- Settles O43: the case of `cycle` in which it does not. -/
theorem stepOnUnsupportedOpcodeLeavesPc : Obligations.StepOnUnsupportedOpcodeLeavesPc :=
  fun _ _ _ => step_of_decode_error

/-- An execution ends in the status it began with, or faulted. -/
theorem exec_status {i : Instr} {s t : State} (h : exec i s = .next t) : t.status = s.status ∨ t.IsFaulted := by
  cases exec_end h with
  | wrote | stored => exact .inl rfl
  | computed => exact .inl (State.computed_status ..)
  | jumped => exact .inl (jumpNotEqual_status ..)
  | raised f => exact .inr ⟨f, rfl⟩

/-- Settles O44: an execution does not halt, so the end of the image is the only way a running machine does. -/
theorem runHaltsExactlyAtTheEndOfTheImage : Obligations.RunHaltsExactlyAtTheEndOfTheImage := by
  intro s hrun hlen
  refine ⟨step_of_end hrun hlen, fun t ht halted => ?_⟩
  cases step_end ht with
  | stopped h => exact absurd hrun h
  | halted hpc => exact hpc
  | refusedOpcode => cases halted
  | executed i _ _ _ ht =>
    rcases exec_status ht with same | ⟨f, faulted⟩
    · cases (halted.symm.trans same).trans hrun
    · cases halted.symm.trans faulted

/-- A step in front of a run, on any machine. -/
theorem run_succ_of_step {M : Host.Core} {s t : M.State} (h : M.step s = .next t) (k : Nat) :
    M.run (k + 1) s = M.run k t := by
  rw [Host.Core.run, h]

/-- Settles O45: by induction on the number of steps, none of which changes the state. -/
theorem haltedAndFaultedAreAbsorbing : Obligations.HaltedAndFaultedAreAbsorbing := by
  intro s h k
  have fixed : step s = .next s := by
    refine step_of_not_running fun hrun => ?_
    rcases h with h | ⟨f, h⟩ <;> cases hrun.symm.trans h
  induction k with
  | zero => rfl
  | succ k ih => exact (run_succ_of_step (M := Sys2Proof.core) fixed k).trans ih

/-- Settles O46: the test stands in front of the others in `cycle`, and is the only one in `State.boot`. -/
theorem overlongImagesAreRefused : Obligations.OverlongImagesAreRefused := by
  refine ⟨fun s hrun hlen => ?_, fun image hlen => if_pos hlen, fun image hlen => if_neg (Nat.not_lt.2 hlen)⟩
  simp only [step, cycle, hrun]
  exact if_pos hlen

/-- Settles O48: of the cases of a step only that of an overlong image gives no next state; an execution always gives
one. -/
theorem stepIsTotal : Obligations.StepIsTotal := by
  intro s hlen
  rcases step_cases s with ⟨_, hx⟩ | ⟨_, hlong, _⟩ | ⟨_, _, hx⟩ | ⟨_, b0, b1, _, hx⟩ | ⟨_, _, _, i, _, hx⟩
  · exact ⟨_, hx⟩
  · omega
  · exact ⟨_, hx⟩
  · exact ⟨_, hx⟩
  · rw [hx]
    exact exec_next i _

/-! ## Faults -/

/-- A running machine that an execution leaves faulted had the fault raised on it, with nothing else changed. -/
theorem exec_faulted {i : Instr} {s t : State} {f : Fault} (h : exec i s = .next t) (hs : s.status = .running)
    (ht : t.status = .faulted f) :
    t = s.raise f ∧ ((∃ dst src, f = .unsupportedOperandCombination i.op dst src) ∨ f = .outOfBounds 0xFFFF) := by
  cases exec_end h with
  | raised f' cause => cases ht; exact ⟨rfl, cause⟩
  | wrote | stored => cases hs.symm.trans ht
  | computed => cases (hs.symm.trans (State.computed_status ..).symm).trans ht
  | jumped => cases (hs.symm.trans (jumpNotEqual_status ..).symm).trans ht

/-- Settles O49: F1 is raised by the step itself, F2 and F3 by the execution of what it decoded. -/
theorem faultsArePrecise : Obligations.FaultsArePrecise := by
  intro s t f hrun ht faulted
  cases step_end ht with
  | stopped h => exact absurd hrun h
  | halted => cases faulted
  | refusedOpcode b0 b1 => cases faulted; exact ⟨rfl, rfl, rfl, rfl, .inl ⟨b0, b1, rfl, rfl⟩⟩
  | executed i _ _ hd ht =>
    obtain ⟨rfl, cause⟩ := exec_faulted ht hrun faulted
    exact ⟨rfl, rfl, rfl, rfl, .inr ⟨i, hd, rfl, cause.imp_left fun ⟨dst, src, e⟩ => ⟨_, dst, src, e, rfl⟩⟩⟩

/-! ## The invariant -/

/-- `State.Inv` speaks of memory, flags and image alone. -/
theorem State.Inv.congr {s t : State} (h : s.Inv) (hm : t.mem = s.mem) (hf : t.flags = s.flags) (hi : t.image = s.image) :
    t.Inv := by
  simp only [State.Inv, State.FlagsLegal, State.zf, State.sf, State.progLen, hm, hf, hi]
  exact h

/-- An ALU result leaves ZF and SF those of its value, never both, and the other bits as they were. -/
theorem State.computed_flagsLegal {s : State} (h : s.FlagsLegal) (op : ArithOp) (d : Reg) (b : Word) :
    (s.computed op d b).FlagsLegal :=
  ⟨State.setFlags_reserved _ _ _ (by rw [State.writeBack_flags]; exact h.1), State.setFlags_not_both _ _ _⟩

theorem exec_keepsInv {i : Instr} {s t : State} (hs : s.Inv) (h : exec i s = .next t) : t.Inv := by
  cases exec_end h with
  | wrote | raised => exact hs
  | jumped => exact hs.congr (jumpNotEqual_mem ..) (jumpNotEqual_flags ..) (jumpNotEqual_image ..)
  | stored m v mem _ stored =>
    obtain ⟨reachable, rest⟩ := hs
    exact ⟨Memory.store_reachable reachable stored, rest⟩
  | computed op d b =>
    obtain ⟨reachable, legal, len⟩ := hs
    refine ⟨?_, State.computed_flagsLegal legal op d b, ?_⟩
    · rwa [State.computed_mem]
    · rwa [State.progLen, State.computed_image]

/-- Settles O53: a store keeps the memory's part, an ALU result the flags', and nothing else touches either. -/
theorem stepKeepsTheInvariant : Obligations.StepKeepsTheInvariant := by
  intro s t hs ht
  cases step_end ht with
  | stopped | halted | refusedOpcode => exact hs
  | executed i _ _ _ ht => exact exec_keepsInv (s := s.advance i.len) hs ht

/-- Settles O52: the reset state is a closed term, of which each clause is decided. -/
theorem resetSatisfiesTheInvariant : Obligations.ResetSatisfiesTheInvariant := by
  show State.reset.Inv
  decide

/-- Settles O51: each register name reads its zero cell. -/
theorem resetPutsEverythingAtItsResetValue : Obligations.ResetPutsEverythingAtItsResetValue := by
  refine ⟨fun r => ?_, rfl, rfl, rfl, rfl, fun _ => rfl⟩
  rcases r with r | r <;> cases r <;> rfl

/-- Settles O54: the two steps are one `cycle`, run with two executions that agree. -/
theorem stepIsTheParameterisedStep : Obligations.StepIsTheParameterisedStep := by
  intro s
  have run : exec = fun i t => t.settle (execDecoded Config.decided (i.decoded Config.decided) t) :=
    funext₂ execIsExecutionOfTheDecodedRecord
  rw [step, run]
  rfl

/-- Settles O56: by the three values of the status. -/
theorem outputIsReadableExactlyWhenHalted : Obligations.OutputIsReadableExactlyWhenHalted := by
  intro s
  cases h : s.status with
  | halted => exact ⟨fun _ => by rw [State.output, h], fun hn => absurd rfl hn⟩
  | running => exact ⟨nofun, fun _ => by rw [State.output, h]⟩
  | faulted f => exact ⟨nofun, fun _ => by rw [State.output, h]⟩

/-- Settles O57: the texts by computation; no operand of the four examples looks at the parameters. -/
theorem listingOfTheSourceExamples : Obligations.ListingOfTheSourceExamples :=
  ⟨fun _ => ⟨rfl, rfl, rfl, rfl⟩, rfl⟩

/-! ## Fetching from the image (R71) and placing bytes in it -/

/-- Settles O47: reading a list at an index, zero where it has none. -/
theorem fetchIsZeroFilled : Obligations.FetchIsZeroFilled := by
  intro image pc k hk
  rw [fetch, Window.get_ofBytes _ hk, List.getD_eq_getElem?_getD, List.getElem?_drop]
  split
  · next h => rw [List.getElem?_eq_getElem h, Option.getD_some]
  · next h => rw [List.getElem?_eq_none (Nat.le_of_not_lt h), Option.getD_none]

/-- The first six bytes of a list make its window. -/
theorem Window.ofBytes_take (l : List Byte) {n : Nat} (h : windowLen ≤ n) :
    Window.ofBytes (l.take n) = Window.ofBytes l := by
  have get (k : Nat) (hk : k < windowLen) : (l.take n).getD k 0 = l.getD k 0 := by
    rw [List.getD_eq_getElem?_getD, List.getElem?_take_of_lt (by omega), List.getD_eq_getElem?_getD]
  unfold Window.ofBytes
  congr 1 <;> exact get _ (by decide)

theorem tableBytes_length (nbits w : Nat) : (tableBytes nbits w).length = windowLen := by
  unfold tableBytes; split <;> rfl

/-- The bytes in front of the placed ones reach exactly to their place. -/
theorem length_before (image : List Byte) (pos : Nat) :
    (image.take pos ++ List.replicate (pos - (image.take pos).length) 0).length = pos := by
  have : (image.take pos).length ≤ pos := List.length_take_le ..
  rw [List.length_append, List.length_replicate]
  omega

theorem drop_placeBytes (image : List Byte) (pos : Nat) (bs : List Byte) :
    (placeBytes image pos bs).drop pos = (bs ++ image.drop (pos + bs.length)).take (maxProgLen - pos) := by
  rw [placeBytes, List.drop_take, List.append_assoc, List.drop_left' (length_before image pos)]

theorem fetch_placeBytes (image : List Byte) (pc : Word) {bs : List Byte} (hbs : bs.length = windowLen)
    (hfit : pc.toNat + windowLen ≤ maxProgLen) : fetch (placeBytes image pc.toNat bs) pc = Window.ofBytes bs := by
  rw [fetch, drop_placeBytes, Window.ofBytes_take _ (by omega), ← Window.ofBytes_take (bs ++ _) le_rfl, ← hbs,
    List.take_left]

theorem length_placeBytes_le (image : List Byte) (pos : Nat) (bs : List Byte) :
    (placeBytes image pos bs).length ≤ maxProgLen :=
  List.length_take_le ..

theorem lt_length_placeBytes (image : List Byte) {pos : Nat} {bs : List Byte} (hbs : bs.length = windowLen)
    (hfit : pos + windowLen ≤ maxProgLen) : pos < (placeBytes image pos bs).length := by
  have : 0 < ((placeBytes image pos bs).drop pos).length := by
    rw [drop_placeBytes, List.length_take, List.length_append]
    simp only [windowLen] at *
    omega
  rw [List.length_drop] at this
  omega

/-- Placing puts the bytes at a pc they fit behind. -/
theorem State.withFetchBytes_fits (s : State) (bs : List Byte) :
    (s.withFetchBytes bs).pc.toNat + windowLen ≤ maxProgLen := by
  simp only [State.withFetchBytes]
  split
  · assumption
  · decide

/-- Settles O55: the placed bytes are the window at the pc they were placed behind. -/
theorem placedWordIsTheNextInstruction : Obligations.PlacedWordIsTheNextInstruction := by
  intro s nbits w i h
  have bytes : decode (Window.ofBytes (tableBytes nbits w)) = .ok i := by
    rw [decodeTableWord] at h
    split at h
    · next hd => cases h; exact hd
    · cases h
  have fits := s.withFetchBytes_fits (tableBytes nbits w)
  have len := tableBytes_length nbits w
  refine step_of_decode rfl (length_placeBytes_le ..) (lt_length_placeBytes _ len fits) ?_
  rw [← bytes]
  exact congrArg decode (fetch_placeBytes _ _ len fits)

end Sys2Proof.Machine
end
